-- ==== Sys2Proof/Word.lean ====
section
/-! DEFINITION. The 32-bit word of the host register space (spec/20_memory.md R50) and the 24-bit
sample of the transport (spec/00_scope.md R9, NBITS). -/

namespace Sys2Proof

/-- One host register or command word: 32 bits (R20, R70). -/
abbrev Word := BitVec 32

/-- One 24-bit sample, as the transport shifts it in (R39). -/
abbrev Sample := BitVec 24

end Sys2Proof
end

