-- ==== Sys2Proof/Syntax.lean ====
section
/-! DEFINITION. The commands of the LCRB: one constructor per row of spec/opcode_table.json
(spec/30_encoding.md R71, R72, R77). -/

namespace Sys2Proof

/-- A decoded command (R75). `count` is the COUNT field `w[15:8]` (R73); the value 0 is a command too:
it is decoded, and the command ends with PARAM (R73, R76). -/
inductive Instr where
  | nop
  | readRaw
  | average (count : BitVec 8)
  | sampleDc (count : BitVec 8)
  | sampleAc (count : BitVec 8)
  | setphOff
  | setphPos
  | setphNeg
deriving DecidableEq, Repr

end Sys2Proof
end

