-- ==== Sys2Proof/Decode.lean ====
section
/-! DEFINITION. The decoder of spec/30_encoding.md R75, total on every 32-bit word and refusing by name
(R78), and the encoder written from the same format (R70, R77, R82). -/

namespace Sys2Proof

/-- OP, `w[3:0]` (R70). -/
def opField (w : Word) : BitVec 4 := w.extractLsb' 0 4

/-- ARG, `w[5:4]` (R70). -/
def argField (w : Word) : BitVec 2 := w.extractLsb' 4 2

/-- RSV0, `w[7:6]` (R70). -/
def rsv0Field (w : Word) : BitVec 2 := w.extractLsb' 6 2

/-- COUNT, `w[15:8]`, unsigned and not scaled (R70, R73). -/
def countField (w : Word) : BitVec 8 := w.extractLsb' 8 8

/-- RSV1, `w[31:16]` (R70). -/
def rsv1Field (w : Word) : BitVec 16 := w.extractLsb' 16 16

/-- Why a word is illegal: the kinds of illegal words R78 lists. The block itself records only
ERR = ILLEGAL. -/
inductive IllegalWord where
  /-- A bit set in `w[7:6]` or `w[31:16]` (R74, R78). -/
  | reservedBits
  /-- ARG ≠ 0 with OP in 0x0, 0x1, 0x2, or `w[5] = 1` with OP = 0x3 (R72, R78). -/
  | argument
  /-- ARG = 3 with OP = 0x4 (R72, R78). -/
  | phaseThree
  /-- COUNT ≠ 0 with OP in 0x0, 0x1, 0x4 (R73, R78). -/
  | count
  /-- OP in 0x5 to 0xF (R71, R78). -/
  | operation
deriving DecidableEq, Repr

/-- What a word decodes to: a command, or ILLEGAL with the reason (R75). -/
inductive Decoded where
  | cmd (i : Instr)
  | illegal (why : IllegalWord)
deriving DecidableEq, Repr

/-- A command that has neither ARG nor COUNT (R72, R73): both must be 0. -/
def decodePlain (w : Word) (i : Instr) : Decoded :=
  if argField w ≠ 0#2 then .illegal .argument
  else if countField w ≠ 0#8 then .illegal .count
  else .cmd i

/-- OP = 0x3 (R72): `w[4]` is EXC and `w[5]` must be 0. -/
def decodeSample (w : Word) : Decoded :=
  if argField w = 0#2 then .cmd (.sampleDc (countField w))
  else if argField w = 1#2 then .cmd (.sampleAc (countField w))
  else .illegal .argument

/-- OP = 0x4 (R72): ARG is the phase, 3 is illegal, and COUNT must be 0. -/
def decodeSetPhase (w : Word) : Decoded :=
  if countField w ≠ 0#8 then .illegal .count
  else if argField w = 0#2 then .cmd .setphOff
  else if argField w = 1#2 then .cmd .setphPos
  else if argField w = 2#2 then .cmd .setphNeg
  else .illegal .phaseThree

/-- The decoder of R75: "Decoding is a total function of the 32-bit word. It does not read any state". -/
def decode (w : Word) : Decoded :=
  if rsv1Field w ≠ 0#16 ∨ rsv0Field w ≠ 0#2 then .illegal .reservedBits
  else if opField w = 0#4 then decodePlain w .nop
  else if opField w = 1#4 then decodePlain w .readRaw
  else if opField w = 2#4 then
    if argField w = 0#2 then .cmd (.average (countField w)) else .illegal .argument
  else if opField w = 3#4 then decodeSample w
  else if opField w = 4#4 then decodeSetPhase w
  else .illegal .operation

/-- `base | (c << 8)`, the word of a command with COUNT = c (R82). -/
def withCount (base : Word) (c : BitVec 8) : Word := base ||| (c.setWidth 32 <<< 8)

/-- The command word of a command (R77, R82). -/
def encode : Instr → Word
  | .nop => 0x00000000#32
  | .readRaw => 0x00000001#32
  | .average c => withCount 0x00000002#32 c
  | .sampleDc c => withCount 0x00000003#32 c
  | .sampleAc c => withCount 0x00000013#32 c
  | .setphOff => 0x00000004#32
  | .setphPos => 0x00000014#32
  | .setphNeg => 0x00000024#32

/-- The `match` column of the opcode table (R77). -/
def tableMatch : Instr → Word
  | .nop => 0x00000000#32
  | .readRaw => 0x00000001#32
  | .average _ => 0x00000002#32
  | .sampleDc _ => 0x00000003#32
  | .sampleAc _ => 0x00000013#32
  | .setphOff => 0x00000004#32
  | .setphPos => 0x00000014#32
  | .setphNeg => 0x00000024#32

/-- The `mask` column of the opcode table (R77). -/
def tableMask : Instr → Word
  | .nop => 0xFFFFFFFF#32
  | .readRaw => 0xFFFFFFFF#32
  | .average _ => 0xFFFF00FF#32
  | .sampleDc _ => 0xFFFF00FF#32
  | .sampleAc _ => 0xFFFF00FF#32
  | .setphOff => 0xFFFFFFFF#32
  | .setphPos => 0xFFFFFFFF#32
  | .setphNeg => 0xFFFFFFFF#32

/-- The 32-bit command word of `nbits` table bits `w`, the bits above them 0; every command is
exactly one such word (R79). -/
def tableWord (nbits w : Nat) : Word := BitVec.ofNat 32 (w % 2 ^ nbits)

/-- What the decoder reads from an instruction whose bits are `w`. -/
def decodeTableWord (nbits w : Nat) : Option Instr :=
  match decode (tableWord nbits w) with
  | .cmd i => some i
  | .illegal _ => none

end Sys2Proof
end

