-- ==== Sys2Proof/Machine/State.lean ====
section
/-! DEFINITION. The state of the LCRB (spec/10_state.md), its environment (spec/00_scope.md R7), the
reasons a step can stop, and the state right after reset (R48). -/

namespace Sys2Proof.Machine

/-- `st`, the step the sequencer performs (R38). -/
inductive St where
  | idle
  | delay
  | rw
  | hi
  | lo
deriving DecidableEq, Repr

/-- `stage`, which command's sequence is running (R38). -/
inductive Stage where
  | raws
  | avg
  | dc
  | warm
  | setp
  | burp
  | setn
  | burn
deriving DecidableEq, Repr

/-- `phase`, the ExcitationPhase (R27, R160). The code 3 is never written (log 11). -/
inductive Phase where
  | off
  | positive
  | negative
deriving DecidableEq, Repr

/-- `err`, the outcome code of the most recent command (R25, R191). Codes 4 to 7 are never produced
(log 11). -/
inductive Err where
  | none
  | timeout
  | illegal
  | param
deriving DecidableEq, Repr

/-- One host access of a cycle. -/
inductive Access where
  /-- The strobes and buses of the host port (R8, R52); both strobes low is no access. -/
  | port (re we : Bool) (idx : BitVec 4) (wdata : Word)
  /-- `MemRead(addr, len)` (R13, R57): the access seen from a byte-addressed bus. -/
  | memRead (addr len : Nat)
  /-- `MemWrite(addr, len, v)` (R13, R57). -/
  | memWrite (addr len : Nat) (v : Word)
deriving DecidableEq, Repr

/-- What the host side drives in one cycle: `rst` and its access (R8). -/
structure HostPins where
  rst : Bool
  access : Access
deriving DecidableEq, Repr

/-- One entry of the host's list of coming work (log 18). -/
inductive HostItem where
  /-- One cycle with these pins. -/
  | pins (p : HostPins)
  /-- `wait_idle` (R81): read STATUS, again and again while the value read has bit 0 set. -/
  | waitIdle
deriving DecidableEq, Repr

/-- The environment of the block, kept apart from its state (R7, R44): the coming inputs, oldest first,
what the host has seen, and the number of cycles performed. None of it is the spec's state. -/
structure Env where
  /-- What the host does in the coming cycles; nothing when the list is empty (log 5). -/
  host : List HostItem
  /-- The coming levels of `dout`; a free value where the list is empty (log 3). -/
  dout : List Bool
  /-- The coming levels of `tick_ms`; a free value where the list is empty (log 4). -/
  tick : List Bool
  /-- The level of `h_rdata` in the cycle just performed (R8, R90; log 9). -/
  hrdata : Word
  /-- The values the host's reads returned, newest first (R80; log 9). -/
  reads : List Word
  /-- Cycles performed: the index of the free values (log 16). -/
  cycle : Nat
deriving DecidableEq, Repr

/-- The state of the machine: every piece of state of spec/10_state.md, and the environment. -/
structure State where
  /-- Control state (R38). -/
  st : St
  /-- Running sequence (R38). -/
  stage : Stage
  /-- STATUS.VALID (R24). -/
  valid : Bool
  /-- STATUS.ERR (R25). -/
  err : Err
  /-- STATUS.DROP (R26). -/
  drop : Bool
  /-- STATUS.OP (R29). -/
  op : BitVec 4
  /-- STATUS.PHASE (R27). -/
  phase : Phase
  /-- The output `sck`, STATUS.SCK (R45). -/
  sck : Bool
  /-- RESULT (R30). -/
  result : Word
  /-- RAW (R31). -/
  raw : Word
  /-- VALP (R32). -/
  valp : Word
  /-- VALN (R33). -/
  valn : Word
  /-- TIMEOUT_MS, bits 15:0 (R34; log 12). -/
  timeoutMs : BitVec 16
  /-- WARMUP_MS, bits 15:0 (R35; log 12). -/
  warmupMs : BitVec 16
  /-- SETTLE_MS, bits 15:0 (R36; log 12). -/
  settleMs : BitVec 16
  /-- The transport's shift register (R39). -/
  sh : Sample
  /-- The averaging accumulator (R40). -/
  acc : Word
  /-- The count latched at acceptance (R41). -/
  n : BitVec 8
  /-- Transactions completed in the current burst (R41). -/
  k : BitVec 8
  /-- Pulse of the current transaction (R42). -/
  p : BitVec 5
  /-- Cycles remaining in the current `sck` phase (R42; log 10). -/
  c : Nat
  /-- Ready-wait countdown in ticks (R43). -/
  tmo : BitVec 16
  /-- Delay countdown in ticks (R43). -/
  dly : BitVec 16
  /-- The environment; no state of the block. -/
  env : Env
deriving DecidableEq, Repr

/-- Why the machine stops with a fault. The LCRB has no traps (R190): these stand for control states
the spec says never occur, and no run from reset meets one (log 13). -/
inductive Fault where
  /-- Raised by the end of a burst in a stage that has none: "The stages WARM, SETP and SETN never reach
  `burst_done`" (R142). Safe: the model stops where the spec gives no step. -/
  | noBurstInStage
  /-- Raised by the end of a delay in a stage that has none (R166 names only WARM, SETP and SETN).
  Safe: the model stops where the spec gives no step. -/
  | noDelayInStage
  /-- Raised by the divider with `n = 0`: "Division by zero cannot happen" (R143). Safe: the model stops
  where the spec gives no quotient. -/
  | divideByZero
deriving DecidableEq, Repr

/-- Why the model has no step. -/
inductive Refusal where
  /-- Raised by `exec` for a command that has no meaning yet. Safe: nothing is claimed of it. -/
  | notModelled (mnemonic : String)
  /-- Raised by a cycle with `h_we = h_re = 1`: "not admitted and has no step" (R52; log 7). Safe. -/
  | bothStrobes
  /-- Raised by a bus access that is not an aligned 32-bit access inside the register window: "A model
  gives no step to any other access" (R57; log 8). Safe. -/
  | busAccess
deriving DecidableEq, Repr

/-- SENTINEL (R9, R30). -/
def sentinel : Word := 0x80000000#32

/-- The environment with which a run starts: nothing listed, nothing read, no cycle performed. The values
are the model's own (log 16), but for `h_rdata`, which a reset cycle drives to 0 (R210). -/
def Env.start : Env where
  host := []
  dout := []
  tick := []
  hrdata := 0#32
  reads := []
  cycle := 0

/-- The machine right after reset: the table of R48. -/
def State.reset : State where
  st := .idle
  stage := .raws
  valid := false
  err := .none
  drop := false
  op := 0#4
  phase := .off
  sck := false
  result := sentinel
  raw := 0#32
  valp := 0#32
  valn := 0#32
  timeoutMs := 3000#16
  warmupMs := 5000#16
  settleMs := 10#16
  sh := 0#24
  acc := 0#32
  n := 0#8
  k := 0#8
  p := 0#5
  c := 0
  tmo := 0#16
  dly := 0#16
  env := Env.start

end Sys2Proof.Machine
end

