-- ==== Sys2Proof/Machine/Ops.lean ====
section
/-! DEFINITION. The operations every command shares: accepting, rejecting and dropping a command word
(spec/40_command.md R92, R94; spec/30_encoding.md R76), the two completion primitives (R100), the start of
a transaction and of a burst (spec/41_transport.md R112; spec/42_averaging.md R140), and reset
(spec/70_reset_and_hazards.md R210). The LCRB has no exception entry and no return from one (R195, R196):
an error is `reject` or `completeErr`. -/

namespace Sys2Proof.Machine

/-- What a step or a part of one answers. -/
abbrev Answer := Host.Outcome State Fault Refusal

/-- Go on with a next state, stop otherwise. -/
def andThen (o : Answer) (f : State → Answer) : Answer :=
  match o with
  | .next s => f s
  | .fault r => .fault r
  | .refused r => .refused r

/-- The next state of an answer, if it is one. -/
def nextState : Answer → Option State
  | .next s => some s
  | .fault _ => none
  | .refused _ => none

/-- A dropped write: `drop <- 1` "and has no other effect" (R94, R96). -/
def dropWrite (s : State) : State := { s with drop := true }

/-- What `accept` does with every word, legal or not (R92). -/
def acceptHead (w : Word) (s : State) : State :=
  { s with drop := false, op := opField w, valid := false }

/-- A rejected word: `err <- code; RESULT <- SENTINEL`, and `st` stays IDLE (R92). -/
def reject (code : Err) (w : Word) (s : State) : State :=
  { acceptHead w s with err := code, result := sentinel }

/-- An accepted word: `err <- NONE` (R92). -/
def accepted (w : Word) (s : State) : State := { acceptHead w s with err := .none }

/-- `param_ok(cmd, S)` (R76). -/
def paramOk (i : Instr) (s : State) : Bool :=
  match i with
  | .nop => true
  | .readRaw => s.timeoutMs ≠ 0#16
  | .average c => c ≠ 0#8 ∧ s.timeoutMs ≠ 0#16
  | .sampleDc c => c ≠ 0#8 ∧ s.timeoutMs ≠ 0#16
  | .sampleAc c => c ≠ 0#8 ∧ s.timeoutMs ≠ 0#16
  | .setphOff => true
  | .setphPos => true
  | .setphNeg => true

/-- A write of the command's word to CMD (R91, R92): dropped while a command runs, ended at once with
PARAM where `param_ok` is false, else accepted, and then `start` is what the command does. -/
def issue (i : Instr) (start : State → State) (s : State) : State :=
  if s.st = .idle then
    if paramOk i s then start (accepted (encode i) s) else reject .param (encode i) s
  else dropWrite s

/-- A write of an illegal word to CMD: rejected while idle (R78, R92), dropped while a command runs (R94). -/
def illegalWrite (w : Word) (s : State) : State :=
  if s.st = .idle then reject .illegal w s else dropWrite s

/-- `complete_ok(v)` (R100). -/
def completeOk (v : Word) (s : State) : State :=
  { s with result := v, valid := true, err := .none, st := .idle }

/-- The stages in which an error completion turns the bridge off (R100). -/
def stageOfAc : Stage → Bool
  | .raws => false
  | .avg => false
  | .dc => false
  | .warm => true
  | .setp => true
  | .burp => true
  | .setn => true
  | .burn => true

/-- `complete_err(code)` (R100): the phase goes Off in the stages of SAMPLE_AC. -/
def completeErr (code : Err) (s : State) : State :=
  { s with
    result := sentinel, valid := false, err := code, st := .idle,
    phase := if stageOfAc s.stage then .off else s.phase }

/-- `begin_transaction`: the ready wait with the full timeout (R112). -/
def beginTransaction (s : State) : State := { s with st := .rw, tmo := s.timeoutMs }

/-- `burst_start(S, c)` (R140). -/
def burstStart (count : BitVec 8) (s : State) : State :=
  beginTransaction { s with n := count, acc := 0#32, k := 0#8 }

/-- The start of a delay of `d` ticks in a stage (R165, R167, R169). -/
def delayStart (stage : Stage) (d : BitVec 16) (s : State) : State :=
  { s with stage := stage, st := .delay, dly := d }

/-- Every piece of the block's state takes its reset value (R48, R210); the environment is no state of
the block (log 16). -/
def resetBlock (s : State) : State := { State.reset with env := s.env }

end Sys2Proof.Machine
end

