-- ==== Sys2Proof/Machine/Averaging.lean ====
section
/-! DEFINITION. AVERAGE (spec/42_averaging.md R146). -/

namespace Sys2Proof.Machine

/-- AVERAGE c (R146): `stage <- AVG; burst_start(S, c)`. -/
def execAverage (c : BitVec 8) (s : State) : Answer :=
  .next (issue (.average c) (fun a => burstStart c { a with stage := .avg }) s)

end Sys2Proof.Machine
end

