-- ==== Sys2Proof/Machine/Command.lean ====
section
/-! DEFINITION. NOP (spec/40_command.md R98). -/

namespace Sys2Proof.Machine

/-- NOP (R98): acceptance, and "Nothing starts". -/
def execNop (s : State) : Answer := .next (issue .nop (fun a => a) s)

end Sys2Proof.Machine
end

