-- ==== Sys2Proof/Machine/Excitation.lean ====
section
/-! DEFINITION. SAMPLE_DC, SAMPLE_AC and SETPH.* (spec/43_excitation.md R162 to R165, R174). -/

namespace Sys2Proof.Machine

/-- SAMPLE_DC c (R174): `stage <- DC; burst_start(S, c)`, the phase unchanged. -/
def execSampleDc (c : BitVec 8) (s : State) : Answer :=
  .next (issue (.sampleDc c) (fun a => burstStart c { a with stage := .dc }) s)

/-- SAMPLE_AC c (R165): `n <- c; stage <- WARM; phase <- Positive; st <- DELAY; dly <- WARMUP_MS`. -/
def execSampleAc (c : BitVec 8) (s : State) : Answer :=
  .next (issue (.sampleAc c)
    (fun a => delayStart .warm a.warmupMs { a with n := c, phase := .positive }) s)

/-- SETPH.OFF (R162): `phase <- Off`. -/
def execSetphOff (s : State) : Answer :=
  .next (issue .setphOff (fun a => { a with phase := .off }) s)

/-- SETPH.POS (R163): `phase <- Positive`. -/
def execSetphPos (s : State) : Answer :=
  .next (issue .setphPos (fun a => { a with phase := .positive }) s)

/-- SETPH.NEG (R164): `phase <- Negative`. -/
def execSetphNeg (s : State) : Answer :=
  .next (issue .setphNeg (fun a => { a with phase := .negative }) s)

end Sys2Proof.Machine
end

