-- ==== Sys2Proof/Machine/Transport.lean ====
section
/-! DEFINITION. READ_RAW (spec/41_transport.md R123). The transaction it starts is run by the sequencer
(Machine/Sequencer.lean), one cycle a step. -/

namespace Sys2Proof.Machine

/-- READ_RAW (R123): `stage <- RAWS; burst_start(S, 1)`. -/
def execReadRaw (s : State) : Answer :=
  .next (issue .readRaw (fun a => burstStart 1#8 { a with stage := .raws }) s)

end Sys2Proof.Machine
end

