-- ==== Sys2Proof/Machine/Dispatch.lean ====
section
/-! DEFINITION. One arm per command: what the host's write of its word to CMD does in that cycle
(spec/40_command.md R91, R92, R94; log 2). -/

namespace Sys2Proof.Machine

def exec (i : Instr) (s : State) : Host.Outcome State Fault Refusal :=
  match i with
  | .nop => Sys2Proof.Machine.execNop s
  | .readRaw => Sys2Proof.Machine.execReadRaw s
  | .average count => Sys2Proof.Machine.execAverage count s
  | .sampleDc count => Sys2Proof.Machine.execSampleDc count s
  | .sampleAc count => Sys2Proof.Machine.execSampleAc count s
  | .setphOff => Sys2Proof.Machine.execSetphOff s
  | .setphPos => Sys2Proof.Machine.execSetphPos s
  | .setphNeg => Sys2Proof.Machine.execSetphNeg s

end Sys2Proof.Machine
end

