-- ==== Sys2Proof/Config.lean ====
section
/-! DEFINITION. What the platform fixes (spec/00_scope.md R9: the OPEN parameters) and the free input
values (spec/41_transport.md R110, spec/60_exceptions.md R201). No constant here has a body. -/

namespace Sys2Proof

/-- The OPEN parameters of R9, and the levels of the free inputs `dout` and `tick_ms` in the cycles for which
the environment lists none. `F_CLK` is not among them: no rule depends on it (log 20). -/
structure Params where
  /-- SCK high-phase length in `clk` cycles (R9, R115). -/
  H : Nat
  /-- SCK low-phase length in `clk` cycles (R9, R116). -/
  L : Nat
  /-- Level of `pwr` when the bridge is powered (R9, R28). -/
  pwrOn : Bool
  /-- Level of `pol` in phase Negative (R9, R28). -/
  polNeg : Bool
  /-- Byte address of index 0 on a byte-addressed host bus (R9, R56). -/
  base : Nat
  /-- The level of `dout` in cycle number `i` where the environment lists none (R110, log 3). -/
  freeDout : Nat → Bool
  /-- The level of `tick_ms` in cycle number `i` where the environment lists none (R201, log 4). -/
  freeTick : Nat → Bool
  /-- R9: "OPEN, integer ≥ 1". -/
  H_pos : 1 ≤ H
  /-- R9: "OPEN, integer ≥ 1". -/
  L_pos : 1 ≤ L

/-- `H` less one, so that `H` is any integer ≥ 1 (log 6). -/
opaque Config.highExtra : Nat

/-- `L` less one, so that `L` is any integer ≥ 1 (log 6). -/
opaque Config.lowExtra : Nat

/-- `PWR_ON` (log 6). -/
opaque Config.pwrOn : Bool

/-- `POL_NEG` (log 6). -/
opaque Config.polNeg : Bool

/-- `BASE` (log 6). -/
opaque Config.base : Nat

/-- The level of the free input `dout` in cycle number `i` where the environment lists none (R110:
"In every cycle, a model takes `dout` as a free input"; log 3). -/
opaque Config.freeDout : Nat → Bool

/-- The level of the input `tick_ms` in cycle number `i` where the environment lists none (R201; log 4). -/
opaque Config.freeTick : Nat → Bool

/-- The parameters and free inputs of this block, of which nothing is known but `H ≥ 1` and `L ≥ 1` (R9). -/
def Config.params : Params where
  H := Config.highExtra + 1
  L := Config.lowExtra + 1
  pwrOn := Config.pwrOn
  polNeg := Config.polNeg
  base := Config.base
  freeDout := Config.freeDout
  freeTick := Config.freeTick
  H_pos := Nat.le_add_left 1 _
  L_pos := Nat.le_add_left 1 _

end Sys2Proof
end

