-- ==== Sys2Proof/Machine/Flags.lean ====
section
/-! DEFINITION. The fields of STATUS (spec/10_state.md R22 to R29) and the output lines `pwr` and `pol`
(R28). -/

namespace Sys2Proof.Machine

/-- The code of an outcome in STATUS.ERR (R25, R191). -/
def errCode : Err → BitVec 3
  | .none => 0#3
  | .timeout => 1#3
  | .illegal => 2#3
  | .param => 3#3

/-- The code of a phase in STATUS.PHASE (R27). -/
def phaseCode : Phase → BitVec 2
  | .off => 0#2
  | .positive => 1#2
  | .negative => 2#2

/-- STATUS.BUSY: `st ≠ IDLE` (R23). -/
def busy (s : State) : Bool := s.st ≠ .idle

/-- The output `pwr`: `(phase == Off) ? (1 - PWR_ON) : PWR_ON` (R28). -/
def pwr (prm : Params) (s : State) : Bool :=
  if s.phase = .off then !prm.pwrOn else prm.pwrOn

/-- The output `pol`: `(phase == Negative) ? POL_NEG : (1 - POL_NEG)` (R28). -/
def pol (prm : Params) (s : State) : Bool :=
  if s.phase = .negative then prm.polNeg else !prm.polNeg

/-- The 20 low bits of STATUS, most significant first, as R53 concatenates them. -/
def statusFields (prm : Params) (s : State) : BitVec 20 :=
  s.op ++ 0#3 ++ BitVec.ofBool s.sck ++ BitVec.ofBool (pol prm s)
    ++ BitVec.ofBool (pwr prm s) ++ phaseCode s.phase ++ 0#2
    ++ BitVec.ofBool s.drop ++ errCode s.err ++ BitVec.ofBool s.valid
    ++ BitVec.ofBool (busy s)

/-- STATUS as the host reads it (R22, R53). -/
def statusWord (prm : Params) (s : State) : Word := (statusFields prm s).setWidth 32

end Sys2Proof.Machine
end

