-- ==== Sys2Proof/Machine/Operands.lean ====
section
/-! DEFINITION. The arithmetic and the bit orders of the data path (spec/00_scope.md R11;
spec/41_transport.md R118 to R120; spec/42_averaging.md R143; spec/43_excitation.md R172, R174;
spec/20_memory.md R56). -/

namespace Sys2Proof.Machine

/-- `zext32` of a 24-bit sample (R11, R120). -/
def zext32 (v : Sample) : Word := v.setWidth 32

/-- `asr32(v, s)`, the arithmetic right shift of a 32-bit pattern (R11). -/
def asr32 (v : Word) (s : Nat) : Word := v.sshiftRight s

/-- The fixup of R119: the raw sample is `sh xor 0x80_0000`. -/
def fixup (sh : Sample) : Sample := sh ^^^ 0x800000#24

/-- `sh[i] <- d` for one bit of the shift register (R115). -/
def putBit (sh : Sample) (i : Nat) (d : Bool) : Sample :=
  if d then sh ||| BitVec.twoPow 24 i else sh &&& ~~~ BitVec.twoPow 24 i

/-- The bit sampled in pulse `p` becomes `sh[23 - p]` (R115, R118). -/
def sampleBit (sh : Sample) (p : Nat) (d : Bool) : Sample := putBit sh (23 - p) d

/-- The divider: the unsigned floor quotient of the accumulator by the count (R143). -/
def floorMean (a : Word) (n : BitVec 8) : Word := a / n.setWidth 32

/-- The AC combination `asr32(valn - valp, 1)` (R172). -/
def combineAc (valn valp : Word) : Word := asr32 (valn - valp) 1

/-- The DC combination `asr32((m << 1) - 0, 1)` (R174). -/
def combineDc (m : Word) : Word := asr32 ((m <<< 1) - 0#32) 1

/-- Byte lane `j` of a register on a byte-addressed bus: bits `8j+7 : 8j` (R56). -/
def byteLane (v : Word) (j : Nat) : BitVec 8 := v.extractLsb' (8 * j) 8

/-- Byte `b` of the 24-bit word in arrival order: byte 0 is `sh[23:16]` (R39, R118). -/
def arrivalByte (sh : Sample) (b : Nat) : BitVec 8 := sh.extractLsb' (8 * (2 - b)) 8

end Sys2Proof.Machine
end

