-- ==== Sys2Proof/Machine/HostPort.lean ====
section
/-! DEFINITION. The host port: the register map (spec/10_state.md R20; spec/20_memory.md R53), the accesses
the block admits (R52, R57), the byte-addressed view (R56), and register writes (spec/40_command.md R95 to
R97). -/

namespace Sys2Proof.Machine

/-- Index of CMD (R20). -/
def idxCmd : BitVec 4 := 0#4
/-- Index of STATUS (R20). -/
def idxStatus : BitVec 4 := 1#4
/-- Index of RESULT (R20). -/
def idxResult : BitVec 4 := 2#4
/-- Index of RAW (R20). -/
def idxRaw : BitVec 4 := 3#4
/-- Index of VALP (R20). -/
def idxValp : BitVec 4 := 4#4
/-- Index of VALN (R20). -/
def idxValn : BitVec 4 := 5#4
/-- Index of TIMEOUT_MS (R20). -/
def idxTimeout : BitVec 4 := 6#4
/-- Index of WARMUP_MS (R20). -/
def idxWarmup : BitVec 4 := 7#4
/-- Index of SETTLE_MS (R20). -/
def idxSettle : BitVec 4 := 8#4

/-- `read_value(S, i)` (R53): CMD and the reserved indices read 0 (R21, R37). -/
def readValue (prm : Params) (s : State) (i : BitVec 4) : Word :=
  if i = idxStatus then statusWord prm s
  else if i = idxResult then s.result
  else if i = idxRaw then s.raw
  else if i = idxValp then s.valp
  else if i = idxValn then s.valn
  else if i = idxTimeout then s.timeoutMs.setWidth 32
  else if i = idxWarmup then s.warmupMs.setWidth 32
  else if i = idxSettle then s.settleMs.setWidth 32
  else 0#32

/-- An access the block admits: none, or one whole register read or written (R52). -/
inductive PortOp where
  | none
  | read (i : BitVec 4)
  | write (i : BitVec 4) (w : Word)
deriving DecidableEq, Repr

/-- A byte address of the register window and its register: `addr = BASE + 4*i`, `0 ≤ i ≤ 15`, accessed
with 4 bytes (R13, R57). -/
def busIndex (prm : Params) (addr len : Nat) : Option (BitVec 4) :=
  if len = 4 ∧ prm.base ≤ addr ∧ (addr - prm.base) % 4 = 0 ∧ (addr - prm.base) / 4 < 16 then
    some (BitVec.ofNat 4 ((addr - prm.base) / 4))
  else Option.none

/-- The access a host drives, as the block sees it; `Except.error` where the block has no step for it:
both strobes (R52), or a bus access other than an aligned 32-bit one in the window (R57). -/
def resolve (prm : Params) : Access → Except Refusal PortOp
  | .port true true _ _ => .error .bothStrobes
  | .port true false i _ => .ok (.read i)
  | .port false true i w => .ok (.write i w)
  | .port false false _ _ => .ok .none
  | .memRead addr len =>
    match busIndex prm addr len with
    | some i => .ok (.read i)
    | Option.none => .error .busAccess
  | .memWrite addr len v =>
    match busIndex prm addr len with
    | some i => .ok (.write i v)
    | Option.none => .error .busAccess

/-- The byte the bus shows at address `BASE + 4*i + j` (R56). -/
def busByte (prm : Params) (s : State) (i : BitVec 4) (j : Nat) : BitVec 8 :=
  byteLane (readValue prm s i) j

/-- `h_rdata` for an access: `read_value` of the state at the start of the cycle, 0 without a read
(R53, R90). -/
def portRead (prm : Params) (s : State) : PortOp → Word
  | .none => 0#32
  | .read i => readValue prm s i
  | .write _ _ => 0#32

/-- Whether an access is a read. -/
def isRead : PortOp → Bool
  | .none => false
  | .read _ => true
  | .write _ _ => false

/-- `cfg_write(i, w)`: the register takes `w[15:0]`, and nothing else changes (R95). -/
def cfgWrite (i : BitVec 4) (w : Word) (s : State) : State :=
  if i = idxTimeout then { s with timeoutMs := w.extractLsb' 0 16 }
  else if i = idxWarmup then { s with warmupMs := w.extractLsb' 0 16 }
  else if i = idxSettle then { s with settleMs := w.extractLsb' 0 16 }
  else s

/-- The indices a write configures (R91). -/
def isConfig (i : BitVec 4) : Bool := i = idxTimeout ∨ i = idxWarmup ∨ i = idxSettle

/-- A host write to an index other than CMD (R91): stored while idle (R95), dropped while a command runs
(R96), without effect at the read-only and reserved indices (R97). -/
def regWrite (i : BitVec 4) (w : Word) (s : State) : State :=
  if isConfig i then if s.st = .idle then cfgWrite i w s else dropWrite s
  else s

end Sys2Proof.Machine
end

