-- ==== Sys2Proof/Machine/Sequencer.lean ====
section
/-! DEFINITION. The sequencer's step of a running command (spec/40_command.md R93): the transport
(spec/41_transport.md R113 to R121), the burst (spec/42_averaging.md R141 to R143) and the excitation
sequence (spec/43_excitation.md R166 to R174). -/

namespace Sys2Proof.Machine

/-- End of the Positive burst (R169). -/
def burpDone (m : Word) (s : State) : State :=
  delayStart .setn s.settleMs { s with valp := m, phase := .negative }

/-- End of the Negative burst: power off and combine (R171). The VALP read is the one in `s`. -/
def burnDone (m : Word) (s : State) : State :=
  completeOk (combineAc m s.valp) { s with valn := m, phase := .off }

/-- End of the burst of SAMPLE_DC (R174). -/
def dcDone (m : Word) (s : State) : State :=
  completeOk (combineDc m) { s with valn := m, valp := 0#32 }

/-- `burst_done(S, stage, m)` (R142). -/
def burstDone (m : Word) (s : State) : Answer :=
  match s.stage with
  | .raws => .next (completeOk m s)
  | .avg => .next (completeOk m s)
  | .dc => .next (dcDone m s)
  | .burp => .next (burpDone m s)
  | .burn => .next (burnDone m s)
  | .warm => .fault .noBurstInStage
  | .setp => .fault .noBurstInStage
  | .setn => .fault .noBurstInStage

/-- `burst_continue(S, raw24)` (R141): add, then the next transaction or the end of the burst. -/
def burstContinue (raw24 : Sample) (s : State) : Answer :=
  let a := s.acc + zext32 raw24
  if s.k.toNat + 1 < s.n.toNat then
    .next (beginTransaction { s with acc := a, k := s.k + 1#8 })
  else if s.n = 0#8 then .fault .divideByZero
  else burstDone (floorMean a s.n) { s with acc := a }

/-- `transaction_done(S, raw24)` (R121). -/
def transactionDone (raw24 : Sample) (s : State) : Answer :=
  burstContinue raw24 { s with raw := zext32 raw24 }

/-- Ready wait (R113): ready is tested before the tick. -/
def rwStep (prm : Params) (dout tick : Bool) (s : State) : State :=
  if dout = false then { s with st := .hi, p := 0#5, c := prm.H, sck := true }
  else if tick then
    if s.tmo = 1#16 then completeErr .timeout s else { s with tmo := s.tmo - 1#16 }
  else s

/-- High phase of pulse `p` (R115). -/
def hiStep (prm : Params) (dout : Bool) (s : State) : State :=
  if 1 < s.c then { s with c := s.c - 1 }
  else
    { s with
      sh := if s.p.toNat ≤ 23 then sampleBit s.sh s.p.toNat dout else s.sh,
      sck := false, st := .lo, c := prm.L }

/-- Low phase of pulse `p` (R116). -/
def loStep (prm : Params) (s : State) : Answer :=
  if 1 < s.c then .next { s with c := s.c - 1 }
  else if s.p.toNat < 24 then .next { s with p := s.p + 1#5, st := .hi, c := prm.H, sck := true }
  else transactionDone (fixup s.sh) s

/-- `delay_done(S, stage)` (R167, R168, R170). -/
def delayDone (s : State) : Answer :=
  match s.stage with
  | .warm => .next (delayStart .setp s.settleMs s)
  | .setp => .next (burstStart s.n { s with stage := .burp })
  | .setn => .next (burstStart s.n { s with stage := .burn })
  | .raws => .fault .noDelayInStage
  | .avg => .fault .noDelayInStage
  | .dc => .fault .noDelayInStage
  | .burp => .fault .noDelayInStage
  | .burn => .fault .noDelayInStage

/-- Delay (R166). -/
def delayStep (tick : Bool) (s : State) : Answer :=
  if s.dly = 0#16 then delayDone s
  else if tick then .next { s with dly := s.dly - 1#16 }
  else .next s

/-- The sequencer's step, chosen by `st` (R93); none while idle (R90). -/
def seqStep (prm : Params) (dout tick : Bool) (s : State) : Answer :=
  match s.st with
  | .idle => .next s
  | .delay => delayStep tick s
  | .rw => .next (rwStep prm dout tick s)
  | .hi => .next (hiStep prm dout s)
  | .lo => loStep prm s

end Sys2Proof.Machine
end

