-- ==== Sys2Proof/Machine/Cycle.lean ====
section
/-! DEFINITION. One `clk` cycle (spec/40_command.md R90, R91): reset, or the host's access and the
sequencer's step; and how the environment's lists are used up (log 1). -/

namespace Sys2Proof.Machine

/-- A cycle without reset or access. -/
def idlePins : HostPins := { rst := false, access := .port false false 0#4 0#32 }

/-- A cycle with a host write of `w` to index `i` (`wr`, R80). -/
def writePins (i : BitVec 4) (w : Word) : HostPins :=
  { rst := false, access := .port false true i w }

/-- A cycle with a host read of index `i` (`rd`, R80). -/
def readPins (i : BitVec 4) : HostPins := { rst := false, access := .port true false i 0#32 }

/-- What the host drives in the coming cycle: nothing when its list is empty (log 5), a read of STATUS in
`wait_idle` (R81). -/
def hostPins (s : State) : HostPins :=
  match s.env.host with
  | [] => idlePins
  | .pins p :: _ => p
  | .waitIdle :: _ => readPins idxStatus

/-- The host's list after a cycle whose read returned `rdata`: `wait_idle` is repeated while bit 0 of the
value read is 1 (R81). -/
def hostRest (rdata : Word) (s : State) : List HostItem :=
  match s.env.host with
  | [] => []
  | .pins _ :: rest => rest
  | .waitIdle :: rest => if rdata.getLsbD 0 then .waitIdle :: rest else rest

/-- The level of `dout` in the coming cycle (R46, R110; log 3). -/
def doutNow (prm : Params) (s : State) : Bool :=
  match s.env.dout with
  | [] => prm.freeDout s.env.cycle
  | d :: _ => d

/-- The level of `tick_ms` in the coming cycle (R201; log 4). -/
def tickNow (prm : Params) (s : State) : Bool :=
  match s.env.tick with
  | [] => prm.freeTick s.env.cycle
  | t :: _ => t

/-- The environment after a cycle in which `h_rdata` was `rdata`. -/
def envNext (rdata : Word) (read : Bool) (s : State) : Env where
  host := hostRest rdata s
  dout := s.env.dout.tail
  tick := s.env.tick.tail
  hrdata := rdata
  reads := if read then rdata :: s.env.reads else s.env.reads
  cycle := s.env.cycle + 1

/-- The end of a cycle: the environment moves on. -/
def endCycle (rdata : Word) (read : Bool) (s : State) : State :=
  { s with env := envNext rdata read s }

/-- A host write to CMD (R91, R92): the decoded command, or the rejection of an illegal word. -/
def cmdWrite (w : Word) (s : State) : Answer :=
  match decode w with
  | .cmd i => exec i s
  | .illegal _ => .next (illegalWrite w s)

/-- `host_write(S, i, w)` (R91). -/
def hostWrite (i : BitVec 4) (w : Word) (s : State) : Answer :=
  if i = idxCmd then cmdWrite w s else .next (regWrite i w s)

/-- The host's part of a cycle: only a write changes the block (R59, R90). -/
def hostPart (a : PortOp) (s : State) : Answer :=
  match a with
  | .none => .next s
  | .read _ => .next s
  | .write i w => hostWrite i w s

/-- A cycle with `rst = 0` and the access `a` (R90). The sequencer steps when `S.st ≠ IDLE`; a host write
then changes only `drop`, which the sequencer neither reads nor writes, so it may come first. -/
def runCycle (prm : Params) (a : PortOp) (s : State) : Answer :=
  andThen (hostPart a s) fun h =>
    andThen (if s.st = .idle then .next h else seqStep prm (doutNow prm s) (tickNow prm s) h) fun t =>
      .next (endCycle (portRead prm s a) (isRead a) t)

/-- A cycle with `rst = 1` (R90, R210): the access is not performed, and a read returns 0. -/
def resetCycle (a : PortOp) (s : State) : State := endCycle 0#32 (isRead a) (resetBlock s)

/-- One `clk` cycle (R90); none for an access the block does not admit (R52, R57; log 7, log 8). -/
def cycle (prm : Params) (s : State) : Answer :=
  match resolve prm (hostPins s).access with
  | .error r => .refused r
  | .ok a => if (hostPins s).rst then .next (resetCycle a s) else runCycle prm a s

/-- `k` cycles, stopping at the first stop. -/
def cycles (prm : Params) : Nat → State → Answer
  | 0, s => .next s
  | k + 1, s => andThen (cycle prm s) (cycles prm k)

/-- `s` with `p` as what the host drives in the coming cycle. -/
def hostDoes (p : HostPins) (s : State) : State :=
  { s with env := { s.env with host := .pins p :: s.env.host.tail } }

end Sys2Proof.Machine
end

