-- ==== Sys2Proof/Machine/Step.lean ====
section
/-! DEFINITION. The machine's step is one `clk` cycle of the block with the platform's parameters
(spec/40_command.md R90; log 1). -/

namespace Sys2Proof.Machine

/-- One `clk` cycle (R90). -/
def step (s : State) : Host.Outcome State Fault Refusal := cycle Config.params s

/-- `s` with the command word of `nbits` table bits `w` as the host's write to CMD in the coming cycle
(R79: one word, one access; log 14). -/
def State.withFetchWord (s : State) (nbits w : Nat) : State :=
  hostDoes (writePins idxCmd (tableWord nbits w)) s

end Sys2Proof.Machine
end

