-- ==== Sys2Proof/Machine/Script.lean ====
section
/-! DEFINITION. The host script of spec/30_encoding.md R80 to R82 and its pseudo-instructions, assembled
to the host's list of coming cycles (log 18). -/

namespace Sys2Proof.Machine

/-- The names of the eight commands (R77). -/
inductive Mnemonic where
  | nop
  | readRaw
  | average
  | sampleDc
  | sampleAc
  | setphOff
  | setphPos
  | setphNeg
deriving DecidableEq, Repr

/-- The `match` word of a mnemonic (R77). -/
def mnemonicWord : Mnemonic → Word
  | .nop => 0x00000000#32
  | .readRaw => 0x00000001#32
  | .average => 0x00000002#32
  | .sampleDc => 0x00000003#32
  | .sampleAc => 0x00000013#32
  | .setphOff => 0x00000004#32
  | .setphPos => 0x00000014#32
  | .setphNeg => 0x00000024#32

/-- `word(MNEMONIC, count)`: the word of R77 with COUNT = count (R80, R82). -/
def scriptWord (m : Mnemonic) (count : BitVec 8) : Word := withCount (mnemonicWord m) count

/-- The count an omitted count stands for: 2 for AVERAGE, SAMPLE_DC and SAMPLE_AC (R81); the other
commands have none, and their COUNT is 0 (R73). -/
def defaultCount : Mnemonic → BitVec 8
  | .nop => 0
  | .readRaw => 0
  | .average => 2
  | .sampleDc => 2
  | .sampleAc => 2
  | .setphOff => 0
  | .setphPos => 0
  | .setphNeg => 0

/-- One line of a host script (R80) or one pseudo-instruction (R81). Comments and the names values are
bound to are text only (log 18). -/
inductive ScriptLine where
  | wr (reg : BitVec 4) (imm : Word)
  | rd (reg : BitVec 4)
  | idle (n : Nat)
  | cmd (m : Mnemonic) (count : Option (BitVec 8))
  | waitIdle
  | get
deriving DecidableEq, Repr

/-- The host's cycles of one line (R80, R81). -/
def assembleLine : ScriptLine → List HostItem
  | .wr reg imm => [.pins (writePins reg imm)]
  | .rd reg => [.pins (readPins reg)]
  | .idle n => List.replicate n (.pins idlePins)
  | .cmd m count => [.pins (writePins idxCmd (scriptWord m (count.getD (defaultCount m))))]
  | .waitIdle => [.waitIdle]
  | .get => [.waitIdle, .pins (readPins idxResult)]

/-- The host's cycles of a script. -/
def assemble (lines : List ScriptLine) : List HostItem := lines.flatMap assembleLine

/-- A run's start: the state after the reset cycle with this script still to be performed (R226, R227). -/
def launch (lines : List ScriptLine) : State :=
  { State.reset with env := { Env.start with host := assemble lines } }

end Sys2Proof.Machine
end

