-- ==== Sys2Proof/Safety.lean ====
section
/-! DEFINITION. What a good state and a good run are: the invariant every step keeps, the launch premises
of spec/70_reset_and_hazards.md R227, the end of a run (R226), and the environments in which a
transaction, a delay and a burst take place. -/

namespace Sys2Proof.Machine

/-- A transaction of a burst is under way (R38). -/
def bursting (s : State) : Bool :=
  match s.st with
  | .idle => false
  | .delay => false
  | .rw => true
  | .hi => true
  | .lo => true

/-- The stages in which a burst runs (R38, R142). -/
def stageHasBurst : Stage → Bool
  | .raws => true
  | .avg => true
  | .dc => true
  | .warm => false
  | .setp => false
  | .burp => true
  | .setn => false
  | .burn => true

/-- OP of the command a stage belongs to (R38, R71). -/
def stageOp : Stage → BitVec 4
  | .raws => 1#4
  | .avg => 2#4
  | .dc => 3#4
  | .warm => 3#4
  | .setp => 3#4
  | .burp => 3#4
  | .setn => 3#4
  | .burn => 3#4

/-- The phase a stage of SAMPLE_AC runs in (R165 to R171); the other commands leave the phase alone
(R161). -/
def stagePhase : Stage → Option Phase
  | .raws => none
  | .avg => none
  | .dc => none
  | .warm => some .positive
  | .setp => some .positive
  | .burp => some .positive
  | .setn => some .negative
  | .burn => some .negative

/-- The range of a successful RESULT by the stage that produced it (R176). -/
def resultInRange (stage : Stage) (v : Word) : Prop :=
  match stage with
  | .burn => -(2 ^ 23 : Int) ≤ v.toInt ∧ v.toInt ≤ 2 ^ 23 - 1
  | .raws => v.toNat < 2 ^ 24
  | .avg => v.toNat < 2 ^ 24
  | .dc => v.toNat < 2 ^ 24
  | .warm => False
  | .setp => False
  | .burp => False
  | .setn => False

/-- While a command runs, its control state is one the spec's transitions produce. -/
structure ControlInv (s : State) : Prop where
  /-- Delays run only in WARM, SETP and SETN (R38). -/
  delay_stage : s.st = .delay → stageHasBurst s.stage = false
  /-- Bursts never run in WARM, SETP and SETN (R142). -/
  burst_stage : bursting s = true → stageHasBurst s.stage = true
  /-- "Its value is in 1..255 while a burst runs" (R41); a command never starts with COUNT = 0 (R76). -/
  count_pos : s.st ≠ .idle → s.n ≠ 0#8
  /-- `k` is in 0..n-1 (R41). -/
  k_lt : bursting s = true → s.k.toNat < s.n.toNat
  /-- READ_RAW runs a single transaction (R123). -/
  raws_single : s.st ≠ .idle → s.stage = .raws → s.n = 1#8
  /-- TIMEOUT_MS ≥ 1 while a command runs (R112). -/
  timeout_pos : s.st ≠ .idle → s.timeoutMs ≠ 0#16
  /-- OP is that of the running command (R29). -/
  op_stage : s.st ≠ .idle → s.op = stageOp s.stage
  /-- The phase of SAMPLE_AC follows its stage (R165 to R171). -/
  phase_stage : s.st ≠ .idle → ∀ f, stagePhase s.stage = some f → s.phase = f
  /-- A command that runs has VALID = 0 and ERR = NONE (R92). -/
  busy_flags : s.st ≠ .idle → s.valid = false ∧ s.err = .none

/-- The counters of the transport and of the delays stay in their ranges. -/
structure CounterInv (prm : Params) (s : State) : Prop where
  /-- "It is 1 exactly in the cycles where `st = HI`" (R45). -/
  sck_high : s.sck = true ↔ s.st = .hi
  /-- `p` is in 0..24 (R42). -/
  p_le : s.p.toNat ≤ 24
  /-- `c` counts the high phase down from H (R42, R115). -/
  c_high : s.st = .hi → 1 ≤ s.c ∧ s.c ≤ prm.H
  /-- `c` counts the low phase down from L (R42, R116). -/
  c_low : s.st = .lo → 1 ≤ s.c ∧ s.c ≤ prm.L
  /-- `tmo` counts down from TIMEOUT_MS and never reaches 0 in the ready wait (R112, R113). -/
  tmo_range : s.st = .rw → s.tmo ≠ 0#16 ∧ s.tmo.toNat ≤ s.timeoutMs.toNat
  /-- `dly` counts down from WARMUP_MS (R165). -/
  dly_warm : s.st = .delay → s.stage = .warm → s.dly.toNat ≤ s.warmupMs.toNat
  /-- `dly` counts down from SETTLE_MS (R167, R169). -/
  dly_settle : s.st = .delay → s.stage ≠ .warm → s.dly.toNat ≤ s.settleMs.toNat

/-- The data registers and the accumulator stay in their ranges. -/
structure DataInv (s : State) : Prop where
  /-- RAW has bits 31:24 zero (R31). -/
  raw_range : s.raw.toNat < 2 ^ 24
  /-- VALP has bits 31:24 zero (R32). -/
  valp_range : s.valp.toNat < 2 ^ 24
  /-- VALN has bits 31:24 zero (R33). -/
  valn_range : s.valn.toNat < 2 ^ 24
  /-- The accumulator holds at most `k` samples, so it never wraps (R144). -/
  acc_range : bursting s = true → s.acc.toNat ≤ s.k.toNat * (2 ^ 24 - 1)
  /-- VALID = 1 only while idle, with ERR = NONE and a RESULT in the range of its command (R24, R176). -/
  valid_result : s.valid = true → s.st = .idle ∧ s.err = .none ∧ resultInRange s.stage s.result
  /-- An error leaves VALID = 0 and SENTINEL in RESULT (R192). -/
  err_sentinel : s.err ≠ .none → s.valid = false ∧ s.result = sentinel

/-- The invariant of the block: it holds after reset, and every step keeps it. -/
structure Inv (prm : Params) (s : State) : Prop where
  control : ControlInv s
  counters : CounterInv prm s
  data : DataInv s

/-- The block admits the access and the cycle is no reset cycle (R52, R57). -/
def calmItem (prm : Params) : HostItem → Bool
  | .pins p => !p.rst && (resolve prm p.access).toBool
  | .waitIdle => true

/-- The host neither resets the block nor drives an access it does not admit, in any coming cycle. What it
reads and writes meanwhile is free. -/
def Calm (prm : Params) (s : State) : Prop := ∀ x ∈ s.env.host, calmItem prm x = true

/-- The block without `drop` and the environment: what the sequencer reads and writes (R90). -/
def sequencerPart (s : State) : State := { s with drop := false, env := Env.start }

/-- Clean launch: the block is in its reset state (R227). -/
def CleanLaunch (s : State) : Prop := resetBlock s = s

/-- The host script has been performed and no command runs: the end of a run (R226). -/
def RunEnded (s : State) : Prop := s.env.host = [] ∧ s.st = .idle

/-- The observable part of a state: every register index 1 to 8 and the output lines (R226). -/
def observable (prm : Params) (s : State) : List Word × Bool × Bool × Bool :=
  ([idxStatus, idxResult, idxRaw, idxValp, idxValn, idxTimeout, idxWarmup, idxSettle].map
    (readValue prm s), s.sck, pwr prm s, pol prm s)

/-- The coming cycle resets the block during HI or LO: the chip is left mid-word (R218). -/
def breaksWord (s : State) : Bool :=
  (hostPins s).rst && match s.st with
    | .idle => false
    | .delay => false
    | .rw => false
    | .hi => true
    | .lo => true

/-- No reset falls in HI or LO in the first `k` cycles: the premise "synchronised chip" is kept (R227). -/
def Synchronised (prm : Params) (k : Nat) (s : State) : Prop :=
  ∀ j < k, ∀ t, cycles prm j s = .next t → breaksWord t = false

/-- A stretch of a well-formed timebase: never ticks in two consecutive cycles (R201). -/
def WellFormedTicks (ticks : List Bool) : Prop :=
  ∀ i, ticks[i]? = some true → ticks[i + 1]? ≠ some true

/-- The level of `dout` in the `j`-th coming cycle: listed, or free (log 3). -/
def doutAt (prm : Params) (s : State) (j : Nat) : Bool :=
  (s.env.dout[j]?).getD (prm.freeDout (s.env.cycle + j))

/-- The level of `tick_ms` in the `j`-th coming cycle: listed, or free (log 4). -/
def tickAt (prm : Params) (s : State) (j : Nat) : Bool :=
  (s.env.tick[j]?).getD (prm.freeTick (s.env.cycle + j))

/-- Well-formed timebase, for all coming cycles (R201, R227). That ticks are one millisecond apart is no
more than a name for their distance: no rule gives the length of a cycle (log 20). -/
def WellFormedTimebase (prm : Params) (s : State) : Prop :=
  ∀ k, WellFormedTicks ((List.range k).map (tickAt prm s))

/-- Fair timebase: "infinitely many ticks" (R202, R227): however many cycles pass, a tick is still to come. -/
def FairTimebase (prm : Params) (s : State) : Prop := ∀ m, ∃ j, m ≤ j ∧ tickAt prm s j = true

/-- The environment of one transaction: the ready wait's length after its first cycle, the chip's word, and
the levels of `dout` and `tick_ms` in its cycles. -/
structure Transfer where
  wait : Nat
  word : Sample
  dout : List Bool
  tick : List Bool
deriving DecidableEq, Repr

/-- Cycles of a transaction whose ready wait has `wait` cycles before the ready one (R124). -/
def transferCycles (prm : Params) (wait : Nat) : Nat := wait + 1 + 25 * (prm.H + prm.L)

/-- A conforming chip in one transaction (R110, R124): `dout` is high for `wait` cycles, low in the next, and
in the last high cycle of pulse `p ≤ 23` it shows bit `23 - p` of the word. Its level in the other cycles is
free. -/
structure ChipConforms (prm : Params) (x : Transfer) : Prop where
  length : x.dout.length = transferCycles prm x.wait
  waits : ∀ i < x.wait, x.dout[i]? = some true
  ready : x.dout[x.wait]? = some false
  bits : ∀ p < 24, x.dout[x.wait + 1 + p * (prm.H + prm.L) + (prm.H - 1)]? =
    some (x.word.getLsbD (23 - p))

/-- The transaction's chip conforms, its ticks are listed, and fewer than `timeout` of them fall in the ready
wait before the chip is ready (R124). -/
structure TransferOk (prm : Params) (timeout : Nat) (x : Transfer) : Prop where
  chip : ChipConforms prm x
  ticks_listed : x.tick.length = x.dout.length
  in_time : (x.tick.take x.wait).count true < timeout

/-- The coming levels of `dout` begin with those of the transactions `xs`, one after another. -/
def burstDout (xs : List Transfer) : List Bool := xs.flatMap Transfer.dout

/-- The coming levels of `tick_ms` in the transactions `xs`. -/
def burstTick (xs : List Transfer) : List Bool := xs.flatMap Transfer.tick

/-- Cycles of a burst (R224). -/
def burstCycles (prm : Params) (xs : List Transfer) : Nat :=
  (xs.map fun x => transferCycles prm x.wait).sum

/-- The raw sample of a transaction as a number (R119, R120). -/
def rawNat (x : Transfer) : Nat := (fixup x.word).toNat

/-- The floor mean of a burst's raw samples (R143, R148). -/
def meanNat (xs : List Transfer) : Nat := (xs.map rawNat).sum / xs.length

/-- The ticks of a delay loaded with `d`: it ends in the cycle after the `d`-th tick, in its first cycle when
`d = 0`; what `tick_ms` is in that last cycle is free (R166). -/
structure DelayTicks (d : Nat) (ticks : List Bool) : Prop where
  nonempty : ticks ≠ []
  count : ticks.dropLast.count true = d
  last_tick : ticks.dropLast.getLast? ≠ some false

/-- While idle, the host writes the word `w` to CMD in the coming cycle and is calm afterwards, and the levels
of `dout` and `tick_ms` that follow those of that cycle begin with these. -/
structure Launched (prm : Params) (s : State) (w : Word) (dout tick : List Bool) : Prop where
  idle : s.st = .idle
  host : ∃ rest, s.env.host = .pins (writePins idxCmd w) :: rest ∧
    ∀ x ∈ rest, calmItem prm x = true
  dout : ∃ d rest, s.env.dout = d :: dout ++ rest
  tick : ∃ t rest, s.env.tick = t :: tick ++ rest

/-- The environment of SAMPLE_AC from the cycle after its acceptance: the levels in its three delays and the
transactions of its two bursts (R165). -/
structure AcSchedule where
  warmDout : List Bool
  warmTick : List Bool
  posDout : List Bool
  posTick : List Bool
  pos : List Transfer
  negDout : List Bool
  negTick : List Bool
  neg : List Transfer
deriving DecidableEq, Repr

/-- The levels of `dout` of a SAMPLE_AC. -/
def acDout (a : AcSchedule) : List Bool :=
  a.warmDout ++ (a.posDout ++ (burstDout a.pos ++ (a.negDout ++ burstDout a.neg)))

/-- The levels of `tick_ms` of a SAMPLE_AC. -/
def acTick (a : AcSchedule) : List Bool :=
  a.warmTick ++ (a.posTick ++ (burstTick a.pos ++ (a.negTick ++ burstTick a.neg)))

/-- Cycles from the acceptance of SAMPLE_AC to the switch to Negative (R224). -/
def acPositiveCycles (prm : Params) (a : AcSchedule) : Nat :=
  a.warmTick.length + a.posTick.length + burstCycles prm a.pos

/-- Cycles from the switch to Negative to the end of SAMPLE_AC (R224). -/
def acNegativeCycles (prm : Params) (a : AcSchedule) : Nat :=
  a.negTick.length + burstCycles prm a.neg

/-- The delays last what the configuration says, and each burst has `count` transactions that are ready in
time (R165 to R171). -/
structure AcScheduleOk (prm : Params) (s : State) (count : BitVec 8) (a : AcSchedule) : Prop where
  warm : DelayTicks s.warmupMs.toNat a.warmTick
  warm_dout : a.warmDout.length = a.warmTick.length
  settle_pos : DelayTicks s.settleMs.toNat a.posTick
  pos_dout : a.posDout.length = a.posTick.length
  settle_neg : DelayTicks s.settleMs.toNat a.negTick
  neg_dout : a.negDout.length = a.negTick.length
  count_pos : count ≠ 0#8
  pos_count : a.pos.length = count.toNat
  neg_count : a.neg.length = count.toNat
  pos_ok : ∀ x ∈ a.pos, TransferOk prm s.timeoutMs.toNat x
  neg_ok : ∀ x ∈ a.neg, TransferOk prm s.timeoutMs.toNat x

/-- A level of the block in each of the next `k` cycles. -/
def levels (f : State → Bool) (prm : Params) : Nat → State → List Bool
  | 0, _ => []
  | k + 1, s =>
    f s :: match cycle prm s with
      | .next t => levels f prm k t
      | .fault _ => []
      | .refused _ => []

end Sys2Proof.Machine
end

