-- ==== Sys2Proof/Certificates/Slice0/Obligations.lean ====
section
/-! DEFINITION. The statements for the provers. Each is about the rules of spec/ its docstring names. A
statement about `cycle prm` holds for every value of the OPEN parameters (spec/00_scope.md R9); the
machine's `step` is `cycle Config.params`. The LCRB has no memory (R51), so no frame has a memory clause. -/

open Sys2Proof Sys2Proof.Machine

/-! ### Encoding -/

/-- Decoding the word of any command gives that command, with every COUNT (R75, R77, R82). -/
def Obligations.DecodeOfEncodeIsTheCommand : Prop :=
  ∀ i : Instr, decode (encode i) = .cmd i

/-- Every word that decodes is the word of its command: no bit of a legal word is ignored (R75, R77). -/
def Obligations.EncodeOfDecodeIsTheWord : Prop :=
  ∀ (w : Word) (i : Instr), decode w = .cmd i → encode i = w

/-- R77: a word is the command of a row exactly when `(w and mask) == match`; every other word is illegal;
the rows do not overlap. -/
def Obligations.DecoderIsTheOpcodeTable : Prop :=
  ∀ w : Word,
    (decode w = .cmd .nop ↔ w &&& 0xFFFFFFFF#32 = 0x00000000#32) ∧
    (decode w = .cmd .readRaw ↔ w &&& 0xFFFFFFFF#32 = 0x00000001#32) ∧
    (decode w = .cmd (.average (w.extractLsb' 8 8)) ↔ w &&& 0xFFFF00FF#32 = 0x00000002#32) ∧
    (decode w = .cmd (.sampleDc (w.extractLsb' 8 8)) ↔ w &&& 0xFFFF00FF#32 = 0x00000003#32) ∧
    (decode w = .cmd (.sampleAc (w.extractLsb' 8 8)) ↔ w &&& 0xFFFF00FF#32 = 0x00000013#32) ∧
    (decode w = .cmd .setphOff ↔ w &&& 0xFFFFFFFF#32 = 0x00000004#32) ∧
    (decode w = .cmd .setphPos ↔ w &&& 0xFFFFFFFF#32 = 0x00000014#32) ∧
    (decode w = .cmd .setphNeg ↔ w &&& 0xFFFFFFFF#32 = 0x00000024#32) ∧
    (∀ i c, decode w = .cmd i →
      (i = .average c ∨ i = .sampleDc c ∨ i = .sampleAc c) → c = w.extractLsb' 8 8) ∧
    ((∃ why, decode w = .illegal why) ↔ ∀ i, w &&& tableMask i ≠ tableMatch i) ∧
    (∀ i j, w &&& tableMask i = tableMatch i → w &&& tableMask j = tableMatch j →
      tableMatch i = tableMatch j)

/-- The illegal words are exactly those R78 lists. -/
def Obligations.IllegalWordsAreThoseListed : Prop :=
  ∀ w : Word, (∃ why, decode w = .illegal why) ↔
    (5 ≤ (w.extractLsb' 0 4).toNat ∨
     w.extractLsb' 6 2 ≠ 0#2 ∨ w.extractLsb' 16 16 ≠ 0#16 ∨
     (w.extractLsb' 4 2 ≠ 0#2 ∧ (w.extractLsb' 0 4).toNat ≤ 2) ∨
     (w.getLsbD 5 = true ∧ w.extractLsb' 0 4 = 3#4) ∨
     (w.extractLsb' 4 2 = 3#2 ∧ w.extractLsb' 0 4 = 4#4) ∨
     (w.extractLsb' 8 8 ≠ 0#8 ∧
       (w.extractLsb' 0 4 = 0#4 ∨ w.extractLsb' 0 4 = 1#4 ∨ w.extractLsb' 0 4 = 4#4)))

/-- Words written out from R70, R77 and R82 decode to the commands they stand for, and two words of R78 are
illegal; the name of the reason is the model's own (log 21). -/
def Obligations.WrittenOutWordsDecode : Prop :=
  decode 0x00000000#32 = .cmd .nop ∧
  decode 0x00000001#32 = .cmd .readRaw ∧
  decode 0x00000302#32 = .cmd (.average 3#8) ∧
  decode 0x0000FF03#32 = .cmd (.sampleDc 255#8) ∧
  decode 0x00000213#32 = .cmd (.sampleAc 2#8) ∧
  decode 0x00000004#32 = .cmd .setphOff ∧
  decode 0x00000014#32 = .cmd .setphPos ∧
  decode 0x00000024#32 = .cmd .setphNeg ∧
  decode 0x00000034#32 = .illegal .phaseThree ∧
  decode 0x00010002#32 = .illegal .reservedBits

/-! ### Commands -/

/-- NOP while idle: `drop <- 0; op <- 0; valid <- 0; err <- NONE`, nothing else (R98). -/
def Obligations.NopClearsTheFlags : Prop :=
  ∀ s : State, s.st = .idle →
    exec .nop s = .next { s with drop := false, op := 0#4, valid := false, err := .none }

/-- SETPH.OFF, SETPH.POS and SETPH.NEG while idle set the phase and the flags, nothing else (R162, R163,
R164). -/
def Obligations.SetPhaseSetsThePhase : Prop :=
  ∀ s : State, s.st = .idle →
    exec .setphOff s = .next { s with
      drop := false, op := 4#4, valid := false, err := .none, phase := .off } ∧
    exec .setphPos s = .next { s with
      drop := false, op := 4#4, valid := false, err := .none, phase := .positive } ∧
    exec .setphNeg s = .next { s with
      drop := false, op := 4#4, valid := false, err := .none, phase := .negative }

/-- READ_RAW, AVERAGE and SAMPLE_DC while idle, with TIMEOUT_MS ≠ 0 and COUNT ≠ 0, start a burst: the ready
wait with the full timeout, the accumulator and the transaction count cleared, the count latched; nothing
else changes (R92, R112, R123, R140, R146, R174). -/
def Obligations.SamplingCommandsStartABurst : Prop :=
  ∀ (s : State) (c : BitVec 8), s.st = .idle → s.timeoutMs ≠ 0#16 →
    exec .readRaw s = .next { s with
      drop := false, op := 1#4, valid := false, err := .none, stage := .raws,
      n := 1#8, acc := 0#32, k := 0#8, st := .rw, tmo := s.timeoutMs } ∧
    (c ≠ 0#8 → exec (.average c) s = .next { s with
      drop := false, op := 2#4, valid := false, err := .none, stage := .avg,
      n := c, acc := 0#32, k := 0#8, st := .rw, tmo := s.timeoutMs }) ∧
    (c ≠ 0#8 → exec (.sampleDc c) s = .next { s with
      drop := false, op := 3#4, valid := false, err := .none, stage := .dc,
      n := c, acc := 0#32, k := 0#8, st := .rw, tmo := s.timeoutMs })

/-- SAMPLE_AC while idle, with TIMEOUT_MS ≠ 0 and COUNT ≠ 0, powers the bridge and starts the warm-up delay;
nothing else changes (R92, R165). -/
def Obligations.SampleAcStartsTheWarmUp : Prop :=
  ∀ (s : State) (c : BitVec 8), s.st = .idle → s.timeoutMs ≠ 0#16 → c ≠ 0#8 →
    exec (.sampleAc c) s = .next { s with
      drop := false, op := 3#4, valid := false, err := .none, n := c, stage := .warm,
      phase := .positive, st := .delay, dly := s.warmupMs }

/-- A command whose parameters are bad (COUNT = 0, or TIMEOUT_MS = 0 for a command that samples) is rejected
while idle: ERR = PARAM, RESULT = SENTINEL, VALID = 0, DROP = 0, OP recorded, nothing else (R76, R92). -/
def Obligations.BadParametersAreRejected : Prop :=
  ∀ (s : State) (c : BitVec 8), s.st = .idle →
    (s.timeoutMs = 0#16 → exec .readRaw s = .next { s with
      drop := false, op := 1#4, valid := false, err := .param, result := 0x80000000#32 }) ∧
    (c = 0#8 ∨ s.timeoutMs = 0#16 →
      exec (.average c) s = .next { s with
        drop := false, op := 2#4, valid := false, err := .param, result := 0x80000000#32 } ∧
      exec (.sampleDc c) s = .next { s with
        drop := false, op := 3#4, valid := false, err := .param, result := 0x80000000#32 } ∧
      exec (.sampleAc c) s = .next { s with
        drop := false, op := 3#4, valid := false, err := .param, result := 0x80000000#32 })

/-- Every command answers a next state in every state (R190: no trap), and what it leaves unchanged, whether
it is accepted, rejected or dropped (R92, R94): the environment, RAW, VALP, VALN, the configuration, `sck`
and the transport's registers; NOP and SETPH.* also RESULT and all control and burst state; the commands that
take a single burst also the phase and `dly`; SAMPLE_AC also the burst registers other than `n`. A rejected or
dropped word starts nothing. -/
def Obligations.CommandsLeaveTheRestUnchanged : Prop :=
  ∀ (i : Instr) (s : State), ∃ t, exec i s = .next t ∧
    t.env = s.env ∧ t.raw = s.raw ∧ t.valp = s.valp ∧ t.valn = s.valn ∧
    t.timeoutMs = s.timeoutMs ∧ t.warmupMs = s.warmupMs ∧ t.settleMs = s.settleMs ∧
    t.sck = s.sck ∧ t.sh = s.sh ∧ t.p = s.p ∧ t.c = s.c ∧
    (i = .nop ∨ i = .setphOff ∨ i = .setphPos ∨ i = .setphNeg →
      t.result = s.result ∧ t.st = s.st ∧ t.stage = s.stage ∧ t.n = s.n ∧ t.k = s.k ∧
      t.acc = s.acc ∧ t.tmo = s.tmo ∧ t.dly = s.dly) ∧
    (i = .nop → t.phase = s.phase) ∧
    (∀ c, i = .readRaw ∨ i = .average c ∨ i = .sampleDc c → t.phase = s.phase ∧ t.dly = s.dly) ∧
    (∀ c, i = .sampleAc c → t.acc = s.acc ∧ t.k = s.k ∧ t.tmo = s.tmo) ∧
    (s.st ≠ .idle ∨ paramOk i s = false →
      t.st = s.st ∧ t.stage = s.stage ∧ t.phase = s.phase ∧ t.n = s.n ∧ t.k = s.k ∧
      t.acc = s.acc ∧ t.tmo = s.tmo ∧ t.dly = s.dly) ∧
    (s.st ≠ .idle ∨ paramOk i s = true → t.result = s.result)

/-- A step runs the decoded command: when the coming cycle writes a word to CMD that decodes to `i`, the step
is `exec i`, then the sequencer's step when a command was running, then the end of the cycle (R90, R91, R92);
and `withFetchWord` places exactly that write (R79; how a word is placed is the model's own, log 14). -/
def Obligations.StepRunsTheDecodedCommand : Prop :=
  (∀ (s : State) (w : Word) (i : Instr), hostPins s = writePins idxCmd w → decode w = .cmd i →
    step s = andThen (exec i s) fun h =>
      andThen (if s.st = .idle then .next h
        else seqStep Config.params (doutNow Config.params s) (tickNow Config.params s) h) fun t =>
      .next (endCycle 0#32 false t)) ∧
  (∀ (s : State) (i : Instr),
    hostPins (s.withFetchWord 32 (encode i).toNat) = writePins idxCmd (encode i))

/-- An illegal word written to CMD while idle is rejected: OP recorded, DROP and VALID cleared, ERR = ILLEGAL,
RESULT = SENTINEL, and nothing starts (R78, R92). -/
def Obligations.IllegalWordsAreRejected : Prop :=
  ∀ (prm : Params) (s : State) (w : Word) (why : IllegalWord), s.st = .idle →
    decode w = .illegal why →
    cycle prm (hostDoes (writePins idxCmd w) s) = .next (endCycle 0#32 false
      { hostDoes (writePins idxCmd w) s with
        drop := false, op := w.extractLsb' 0 4, valid := false, err := .illegal,
        result := 0x80000000#32 })

/-! ### The host port -/

/-- R95: a write to TIMEOUT_MS, WARMUP_MS or SETTLE_MS while idle stores `zext32(w[15:0])`, whatever `w[31:16]`
is, and changes nothing else. -/
def Obligations.ConfigurationWritesAreStored : Prop :=
  ∀ (prm : Params) (s : State) (w : Word), s.st = .idle →
    (∃ t, cycle prm (hostDoes (writePins 6#4 w) s) = .next t ∧
      t = { s with timeoutMs := w.extractLsb' 0 16, env := t.env } ∧
      readValue prm t 6#4 = (w.extractLsb' 0 16).setWidth 32) ∧
    (∃ t, cycle prm (hostDoes (writePins 7#4 w) s) = .next t ∧
      t = { s with warmupMs := w.extractLsb' 0 16, env := t.env } ∧
      readValue prm t 7#4 = (w.extractLsb' 0 16).setWidth 32) ∧
    (∃ t, cycle prm (hostDoes (writePins 8#4 w) s) = .next t ∧
      t = { s with settleMs := w.extractLsb' 0 16, env := t.env } ∧
      readValue prm t 8#4 = (w.extractLsb' 0 16).setWidth 32)

/-- R94 and R96: while a command runs, a write to CMD, TIMEOUT_MS, WARMUP_MS or SETTLE_MS sets DROP and has no
other effect: the cycle is the one without the write, with DROP = 1, and the configuration registers keep their
values. This holds whatever the word is. -/
def Obligations.BusyWritesOnlySetDrop : Prop :=
  ∀ (prm : Params) (s t : State) (i : BitVec 4) (w : Word), s.st ≠ .idle →
    (i = 0#4 ∨ i = 6#4 ∨ i = 7#4 ∨ i = 8#4) →
    cycle prm (hostDoes idlePins s) = .next t →
    cycle prm (hostDoes (writePins i w) s) = .next { t with drop := true } ∧
    t.timeoutMs = s.timeoutMs ∧ t.warmupMs = s.warmupMs ∧ t.settleMs = s.settleMs

/-- R97: a write to STATUS, RESULT, RAW, VALP, VALN or a reserved index has no effect, idle or busy: the cycle
is the one without the write, and DROP is not set by it. -/
def Obligations.ReadOnlyWritesHaveNoEffect : Prop :=
  ∀ (prm : Params) (s : State) (i : BitVec 4) (w : Word),
    (1 ≤ i.toNat ∧ i.toNat ≤ 5) ∨ 9 ≤ i.toNat →
    cycle prm (hostDoes (writePins i w) s) = cycle prm (hostDoes idlePins s)

/-- A read has no side effect: the cycle is the one without the read, but that `h_rdata` shows `read_value` of
the state at the start of the cycle (R53, R59, R90); where the model holds the values read is its own (log 9). -/
def Obligations.ReadsHaveNoSideEffect : Prop :=
  ∀ (prm : Params) (s t : State) (i : BitVec 4),
    cycle prm (hostDoes idlePins s) = .next t →
    cycle prm (hostDoes (readPins i) s) = .next { t with
      env := { t.env with
        hrdata := readValue prm s i, reads := readValue prm s i :: s.env.reads } }

/-- What the host reads at each defined index: the fields of STATUS (R22) with the codes of ERR (R191) and of
PHASE (R27) as numbers, the data registers (R30 to R33), the configuration with bits 31:16 zero (R34 to R36),
and 0 from CMD (R21). -/
def Obligations.RegistersReadAsMapped : Prop :=
  ∀ (prm : Params) (s : State),
    readValue prm s 0#4 = 0#32 ∧
    (readValue prm s 1#4).getLsbD 0 = decide (s.st ≠ .idle) ∧
    (readValue prm s 1#4).getLsbD 1 = s.valid ∧
    (s.err = .none → (readValue prm s 1#4).extractLsb' 2 3 = 0#3) ∧
    (s.err = .timeout → (readValue prm s 1#4).extractLsb' 2 3 = 1#3) ∧
    (s.err = .illegal → (readValue prm s 1#4).extractLsb' 2 3 = 2#3) ∧
    (s.err = .param → (readValue prm s 1#4).extractLsb' 2 3 = 3#3) ∧
    (readValue prm s 1#4).getLsbD 5 = s.drop ∧
    (readValue prm s 1#4).extractLsb' 6 2 = 0#2 ∧
    (s.phase = .off → (readValue prm s 1#4).extractLsb' 8 2 = 0#2) ∧
    (s.phase = .positive → (readValue prm s 1#4).extractLsb' 8 2 = 1#2) ∧
    (s.phase = .negative → (readValue prm s 1#4).extractLsb' 8 2 = 2#2) ∧
    (readValue prm s 1#4).getLsbD 10 = pwr prm s ∧
    (readValue prm s 1#4).getLsbD 11 = pol prm s ∧
    (readValue prm s 1#4).getLsbD 12 = s.sck ∧
    (readValue prm s 1#4).extractLsb' 13 3 = 0#3 ∧
    (readValue prm s 1#4).extractLsb' 16 4 = s.op ∧
    (readValue prm s 1#4).extractLsb' 20 12 = 0#12 ∧
    readValue prm s 2#4 = s.result ∧
    readValue prm s 3#4 = s.raw ∧
    readValue prm s 4#4 = s.valp ∧
    readValue prm s 5#4 = s.valn ∧
    readValue prm s 6#4 = s.timeoutMs.setWidth 32 ∧
    readValue prm s 7#4 = s.warmupMs.setWidth 32 ∧
    readValue prm s 8#4 = s.settleMs.setWidth 32

/-- R37: indices 9 to 15 read 0, and a write to one has no effect and does not set DROP. -/
def Obligations.ReservedIndicesAreInert : Prop :=
  ∀ (prm : Params) (s : State) (i : BitVec 4) (w : Word), 9 ≤ i.toNat →
    readValue prm s i = 0#32 ∧ regWrite i w s = s ∧
    ∀ t, cycle prm (hostDoes (writePins i w) s) = .next t → t.drop = s.drop

/-- R57: on a byte-addressed bus the whole-word accesses at `BASE + 4*i` are the port's accesses of register
`i`, and a cycle without reset with any other access has no step. -/
def Obligations.BusAccessesAreWholeWords : Prop :=
  ∀ (prm : Params) (s : State) (r : Bool) (v : Word),
    (∀ i : BitVec 4,
      cycle prm (hostDoes ⟨r, .memRead (prm.base + 4 * i.toNat) 4⟩ s) =
        cycle prm (hostDoes ⟨r, .port true false i 0#32⟩ s) ∧
      cycle prm (hostDoes ⟨r, .memWrite (prm.base + 4 * i.toNat) 4 v⟩ s) =
        cycle prm (hostDoes ⟨r, .port false true i v⟩ s)) ∧
    (∀ addr len : Nat, ¬ (len = 4 ∧ ∃ i < 16, addr = prm.base + 4 * i) →
      cycle prm (hostDoes ⟨false, .memRead addr len⟩ s) = .refused .busAccess ∧
      cycle prm (hostDoes ⟨false, .memWrite addr len v⟩ s) = .refused .busAccess)

/-- A cycle with both strobes high has no step (R52, R90); that the model also gives none to such a cycle with
`rst = 1` is its reading of R90 (log 7). -/
def Obligations.BothStrobesHaveNoStep : Prop :=
  ∀ (prm : Params) (s : State) (r : Bool) (i : BitVec 4) (w : Word),
    cycle prm (hostDoes ⟨r, .port true true i w⟩ s) = .refused .bothStrobes

/-- Little-endian byte lanes: byte `BASE + 4*i + j` carries bits `8j+7 : 8j` of register `i` (R56). -/
def Obligations.ByteLanesAreLittleEndian : Prop :=
  ∀ (prm : Params) (s : State) (i : BitVec 4),
    busByte prm s i 3 ++ busByte prm s i 2 ++ busByte prm s i 1 ++ busByte prm s i 0 =
      readValue prm s i

/-- A cycle with `rst = 1` and an admitted access sets every piece of the block's state to its reset value,
whatever runs, and does not perform the access: `h_rdata` is 0 (R210). -/
def Obligations.ResetCycleResetsTheBlock : Prop :=
  ∀ (prm : Params) (s : State) (x : Access) (a : PortOp), resolve prm x = .ok a →
    ∃ t, cycle prm (hostDoes ⟨true, x⟩ s) = .next t ∧
      t = { State.reset with env := t.env } ∧ t.env.hrdata = 0#32

/-- R48: the value of every piece of state after reset, and what STATUS reads then. -/
def Obligations.ResetValuesAreTheTable : Prop :=
  State.reset.st = .idle ∧ State.reset.stage = .raws ∧ State.reset.valid = false ∧
  State.reset.err = .none ∧ State.reset.drop = false ∧ State.reset.op = 0#4 ∧
  State.reset.phase = .off ∧ State.reset.sck = false ∧
  State.reset.result = 0x80000000#32 ∧ State.reset.raw = 0#32 ∧ State.reset.valp = 0#32 ∧
  State.reset.valn = 0#32 ∧ State.reset.timeoutMs = 3000#16 ∧ State.reset.warmupMs = 5000#16 ∧
  State.reset.settleMs = 10#16 ∧ State.reset.sh = 0#24 ∧ State.reset.acc = 0#32 ∧
  State.reset.n = 0#8 ∧ State.reset.k = 0#8 ∧ State.reset.p = 0#5 ∧ State.reset.c = 0 ∧
  State.reset.tmo = 0#16 ∧ State.reset.dly = 0#16 ∧
  ∀ prm : Params,
    pwr prm State.reset = !prm.pwrOn ∧ pol prm State.reset = !prm.polNeg ∧
    readValue prm State.reset 1#4 =
      ((if prm.pwrOn then 0#32 else 1#32) <<< 10) ||| ((if prm.polNeg then 0#32 else 1#32) <<< 11) ∧
    (prm.pwrOn = true → prm.polNeg = true → readValue prm State.reset 1#4 = 0#32)

/-- R28: `pwr` and `pol` are functions of the phase and the parameters, and STATUS.PWR and STATUS.POL read the
same values. -/
def Obligations.LinesFollowThePhase : Prop :=
  ∀ (prm : Params) (s : State),
    (s.phase = .off → pwr prm s = !prm.pwrOn ∧ pol prm s = !prm.polNeg) ∧
    (s.phase = .positive → pwr prm s = prm.pwrOn ∧ pol prm s = !prm.polNeg) ∧
    (s.phase = .negative → pwr prm s = prm.pwrOn ∧ pol prm s = prm.polNeg) ∧
    (readValue prm s 1#4).getLsbD 10 = pwr prm s ∧ (readValue prm s 1#4).getLsbD 11 = pol prm s

/-- `wait_idle` reads STATUS in each cycle and is repeated exactly while BUSY (R81); how the host's list holds
it is the model's own (log 18). -/
def Obligations.WaitIdlePollsUntilIdle : Prop :=
  ∀ (prm : Params) (s t : State) (rest : List HostItem), s.env.host = .waitIdle :: rest →
    cycle prm s = .next t →
    t.env.hrdata = statusWord prm s ∧ t.env.reads = statusWord prm s :: s.env.reads ∧
    t.drop = s.drop ∧
    (s.st ≠ .idle → t.env.host = .waitIdle :: rest) ∧ (s.st = .idle → t.env.host = rest)

/-! ### The sequencer's steps -/

/-- R113: the ready wait. Ready is tested before the tick; a tick with `tmo = 1` ends the command with TIMEOUT,
any other tick counts down. R100: the two ways a running command ends. An error turns the bridge off in the
five stages of SAMPLE_AC and keeps the phase in the others; TIMEOUT is the only code; DROP and OP are kept;
BUSY then reads 0; and what the host does in a cycle ends nothing. -/
def Obligations.ReadyWaitPollsThenCounts : Prop :=
  ∀ (prm : Params) (s : State),
    (s.st = .rw → ∀ tick : Bool,
      seqStep prm false tick s = .next { s with st := .hi, p := 0#5, c := prm.H, sck := true } ∧
      (s.tmo = 1#16 → seqStep prm true true s = .next (completeErr .timeout s)) ∧
      (s.tmo ≠ 1#16 → seqStep prm true true s = .next { s with tmo := s.tmo - 1#16 }) ∧
      seqStep prm true false s = .next s) ∧
    (∀ v : Word, completeOk v s = { s with
      result := v, valid := true, err := .none, st := .idle }) ∧
    completeErr .timeout s = { s with
      result := 0x80000000#32, valid := false, err := .timeout, st := .idle,
      phase := if s.stage = .warm ∨ s.stage = .setp ∨ s.stage = .burp ∨ s.stage = .setn ∨
        s.stage = .burn then .off else s.phase } ∧
    (∀ (dout tick : Bool) (u : State), s.st ≠ .idle → seqStep prm dout tick s = .next u →
      u.st = .idle →
      (u.valid = true ∧ u.err = .none ∨
        u.valid = false ∧ u.err = .timeout ∧ u.result = 0x80000000#32) ∧
      u.drop = s.drop ∧ u.op = s.op ∧ (readValue prm u 1#4).getLsbD 0 = false) ∧
    (∀ (a : PortOp) (u : State), s.st ≠ .idle → hostPart a s = .next u →
      u = s ∨ u = { s with drop := true })

/-- The high phase of pulse `p`: it counts down, and in its last cycle takes `dout` as bit `23 - p` when
`p ≤ 23`, leaving the other bits, and goes low for `L` cycles (R115, R118). -/
def Obligations.HighPhaseSamplesInItsLastCycle : Prop :=
  ∀ (prm : Params) (s : State) (dout tick : Bool), s.st = .hi →
    (1 < s.c → seqStep prm dout tick s = .next { s with c := s.c - 1 }) ∧
    (s.c ≤ 1 → ∃ t, seqStep prm dout tick s = .next t ∧
      t = { s with sh := t.sh, sck := false, st := .lo, c := prm.L } ∧
      ∀ j < 24, t.sh.getLsbD j = if j + s.p.toNat = 23 then dout else s.sh.getLsbD j)

/-- The low phase of pulse `p`: it counts down, then the next pulse begins, and after pulse 24 the transaction
is done with the word `sh xor 0x80_0000` (R116, R119). -/
def Obligations.LowPhaseEndsThePulse : Prop :=
  ∀ (prm : Params) (s : State) (dout tick : Bool), s.st = .lo →
    (1 < s.c → seqStep prm dout tick s = .next { s with c := s.c - 1 }) ∧
    (s.c ≤ 1 → s.p.toNat < 24 → seqStep prm dout tick s = .next { s with
      p := s.p + 1#5, st := .hi, c := prm.H, sck := true }) ∧
    (s.c ≤ 1 → 24 ≤ s.p.toNat →
      seqStep prm dout tick s = transactionDone (s.sh ^^^ 0x800000#24) s)

/-- A completed transaction writes RAW and adds the sample; it starts the next transaction with the full
timeout, or, the burst's last, hands on the floor of the sum over the count (R121, R141, R143). -/
def Obligations.TransactionsAccumulate : Prop :=
  ∀ (s : State) (x : Sample),
    (s.k.toNat + 1 < s.n.toNat → transactionDone x s = .next { s with
      raw := x.setWidth 32, acc := s.acc + x.setWidth 32, k := s.k + 1#8,
      st := .rw, tmo := s.timeoutMs }) ∧
    (s.n.toNat ≤ s.k.toNat + 1 → s.n ≠ 0#8 → ∃ m : Word,
      m.toNat = (s.acc + x.setWidth 32).toNat / s.n.toNat ∧
      transactionDone x s = burstDone m { s with
        raw := x.setWidth 32, acc := s.acc + x.setWidth 32 })

/-- What the end of a burst does with the mean, by stage (R142, R169, R171, R174, R100); in the stages that no
burst reaches it is the model's own fault `noBurstInStage` (log 13). -/
def Obligations.BurstsEndByStage : Prop :=
  ∀ (s : State) (m : Word),
    (s.stage = .raws ∨ s.stage = .avg → burstDone m s = .next { s with
      result := m, valid := true, err := .none, st := .idle }) ∧
    (s.stage = .dc → burstDone m s = .next { s with
      valn := m, valp := 0#32, result := ((m <<< 1) - 0#32).sshiftRight 1,
      valid := true, err := .none, st := .idle }) ∧
    (s.stage = .burp → burstDone m s = .next { s with
      valp := m, phase := .negative, stage := .setn, st := .delay, dly := s.settleMs }) ∧
    (s.stage = .burn → burstDone m s = .next { s with
      valn := m, phase := .off, result := (m - s.valp).sshiftRight 1,
      valid := true, err := .none, st := .idle }) ∧
    (s.stage = .warm ∨ s.stage = .setp ∨ s.stage = .setn →
      burstDone m s = .fault .noBurstInStage)

/-- A delay counts `dly` down on ticks and ends in the first cycle that starts with `dly = 0` (R166). -/
def Obligations.DelaysCountTicks : Prop :=
  ∀ (prm : Params) (s : State) (dout : Bool), s.st = .delay →
    (s.dly ≠ 0#16 → seqStep prm dout true s = .next { s with dly := s.dly - 1#16 }) ∧
    (s.dly ≠ 0#16 → seqStep prm dout false s = .next s) ∧
    (s.dly = 0#16 → ∀ tick, seqStep prm dout tick s = delayDone s)

/-- R167, R168 and R170: what the end of a delay does. After WARM the Positive settle delay begins and neither
`st` nor the lines change; after SETP and SETN a burst of `n` transactions begins. -/
def Obligations.DelaysEndByStage : Prop :=
  ∀ (prm : Params) (s : State) (dout tick : Bool), s.st = .delay → s.dly = 0#16 →
    (s.stage = .warm → seqStep prm dout tick s = .next { s with
      stage := .setp, dly := s.settleMs, st := .delay, phase := s.phase }) ∧
    (s.stage = .setp → seqStep prm dout tick s = .next { s with
      stage := .burp, n := s.n, acc := 0#32, k := 0#8, st := .rw, tmo := s.timeoutMs }) ∧
    (s.stage = .setn → seqStep prm dout tick s = .next { s with
      stage := .burn, n := s.n, acc := 0#32, k := 0#8, st := .rw, tmo := s.timeoutMs })

/-! ### Arithmetic -/

/-- R119: the raw sample is `sh xor 0x80_0000`, which is `{byte0 xor 0x80, byte1, byte2}`: the top bit of the
most significant byte is inverted and no other bit is changed. -/
def Obligations.FixupFlipsTheTopBit : Prop :=
  ∀ sh : Sample,
    fixup sh = sh ^^^ 0x800000#24 ∧
    fixup sh = (arrivalByte sh 0 ^^^ 0x80#8) ++ arrivalByte sh 1 ++ arrivalByte sh 2 ∧
    ∀ j < 24, (fixup sh).getLsbD j = if j = 23 then !sh.getLsbD j else sh.getLsbD j

/-- The raw sample as a 32-bit value lies in [0, 2^24-1], and is the chip's two's-complement value offset by
2^23 (R120). -/
def Obligations.RawSampleIsTheOffsetValue : Prop :=
  ∀ sh : Sample, (zext32 (fixup sh)).toNat < 2 ^ 24 ∧
    ((zext32 (fixup sh)).toNat : Int) = sh.toInt + 2 ^ 23

/-- R172 and R178: for means in [0, 2^24-1] the subtraction is exact, and the AC combination is
`floor((valn - valp) / 2)`: exactly half of an even difference, half of one less than an odd one, for either
sign. -/
def Obligations.AcCombinationIsTheFloor : Prop :=
  ∀ valn valp : Sample,
    (zext32 valn - zext32 valp).toInt = (valn.toNat : Int) - valp.toNat ∧
    (combineAc (zext32 valn) (zext32 valp)).toInt = ((valn.toNat : Int) - valp.toNat).fdiv 2 ∧
    (((valn.toNat : Int) - valp.toNat) % 2 = 0 →
      2 * (combineAc (zext32 valn) (zext32 valp)).toInt = (valn.toNat : Int) - valp.toNat) ∧
    (((valn.toNat : Int) - valp.toNat) % 2 = 1 →
      2 * (combineAc (zext32 valn) (zext32 valp)).toInt = (valn.toNat : Int) - valp.toNat - 1)

/-- R175: for every `m` in [0, 2^24-1], `asr32((m << 1) - 0, 1) = m`. -/
def Obligations.DcCombinationIsTheMean : Prop :=
  ∀ m : Word, m.toNat < 2 ^ 24 → combineDc m = m ∧ ((m <<< 1) - 0#32).sshiftRight 1 = m

/-- Under the invariant the accumulator never wraps while a burst runs, and neither does it with the sample
that is added next (R144). -/
def Obligations.AccumulatorNeverWraps : Prop :=
  ∀ (prm : Params) (s : State) (x : Sample), Inv prm s → bursting s = true →
    (s.acc + zext32 x).toNat = s.acc.toNat + x.toNat ∧
    (s.acc + zext32 x).toNat ≤ s.n.toNat * (2 ^ 24 - 1) ∧
    s.acc.toNat + x.toNat ≤ 0xFEFFFF01

/-! ### Invariants -/

/-- The invariant holds after reset, with any parameters. -/
def Obligations.InvariantHoldsAtReset : Prop :=
  ∀ prm : Params, Inv prm State.reset

/-- Every step keeps the invariant, with this block's parameters and with any: control state, counters, flags
and data registers stay in the ranges the spec gives them (R38 to R45, R24, R31 to R33, R144, R165 to R171,
R176). -/
def Obligations.EveryStepKeepsTheInvariant : Prop :=
  (∀ s t : State, Inv Config.params s → step s = .next t → Inv Config.params t) ∧
  (∀ (prm : Params) (s t : State), Inv prm s → cycle prm s = .next t → Inv prm t)

/-- Under the invariant a cycle with an admitted access always answers a next state: none of the model's faults
is reached (R142, R143, R190). -/
def Obligations.GoodStatesAlwaysStep : Prop :=
  ∀ (prm : Params) (s : State) (a : PortOp), Inv prm s →
    resolve prm (hostPins s).access = .ok a → ∃ t, cycle prm s = .next t

/-- Under the invariant VALID = 1 excludes SENTINEL: a result is never the error value (R24, R176). -/
def Obligations.ValidResultsAreNeverTheSentinel : Prop :=
  ∀ (prm : Params) (s : State), Inv prm s → s.valid = true →
    s.result ≠ 0x80000000#32 ∧ s.st = .idle ∧ s.err = .none ∧
    -(2 ^ 23 : Int) ≤ s.result.toInt ∧ s.result.toInt ≤ 2 ^ 24 - 1

/-! ### Who can change what -/

/-- No host access cancels or changes a running command (R94, R96, R99, R126): of two runs that differ only in
DROP and in what a calm host does, the block's states differ only in DROP for as long as the command runs and
in the cycle after. -/
def Obligations.HostCannotDisturbARunningCommand : Prop :=
  ∀ (prm : Params) (s : State) (h₁ h₂ : List HostItem) (d₁ d₂ : Bool) (k : Nat) (t : State),
    Calm prm { s with drop := d₁, env := { s.env with host := h₁ } } →
    Calm prm { s with drop := d₂, env := { s.env with host := h₂ } } →
    (∀ j < k, ∀ u, cycles prm j { s with drop := d₁, env := { s.env with host := h₁ } } = .next u →
      u.st ≠ .idle) →
    cycles prm k { s with drop := d₁, env := { s.env with host := h₁ } } = .next t →
    ∃ t', cycles prm k { s with drop := d₂, env := { s.env with host := h₂ } } = .next t' ∧
      sequencerPart t' = sequencerPart t

/-- While idle, only a CMD write or a reset changes RESULT, RAW, VALP, VALN, VALID, ERR, OP, PHASE and SCK
(R62). -/
def Obligations.OutcomeHoldsUntilTheNextCommand : Prop :=
  ∀ (prm : Params) (k : Nat) (s t : State), s.st = .idle →
    (∀ q, HostItem.pins q ∈ s.env.host →
      q.rst = false ∧ ∀ w, resolve prm q.access ≠ .ok (.write idxCmd w)) →
    cycles prm k s = .next t →
    t.st = .idle ∧ t.result = s.result ∧ t.raw = s.raw ∧ t.valp = s.valp ∧ t.valn = s.valn ∧
    t.valid = s.valid ∧ t.err = s.err ∧ t.op = s.op ∧ t.phase = s.phase ∧ t.sck = s.sck

/-- DROP is set by a write to CMD or to the configuration while a command runs, cleared by a CMD write while
idle and by reset, and kept by every other cycle, the one that completes a command among them (R26, R91, R92,
R193). -/
def Obligations.DropIsSetAndClearedAsStated : Prop :=
  ∀ (prm : Params) (s t : State) (a : PortOp), resolve prm (hostPins s).access = .ok a →
    cycle prm s = .next t →
    ((hostPins s).rst = true → t.drop = false) ∧
    ((hostPins s).rst = false → s.st = .idle → (∃ w, a = .write 0#4 w) → t.drop = false) ∧
    ((hostPins s).rst = false → s.st = .idle → (∀ w, a ≠ .write 0#4 w) → t.drop = s.drop) ∧
    ((hostPins s).rst = false → s.st ≠ .idle →
      (∃ i w, a = .write i w ∧ (i = 0#4 ∨ i = 6#4 ∨ i = 7#4 ∨ i = 8#4)) → t.drop = true) ∧
    ((hostPins s).rst = false → s.st ≠ .idle →
      (∀ i w, a = .write i w → ¬ (i = 0#4 ∨ i = 6#4 ∨ i = 7#4 ∨ i = 8#4)) → t.drop = s.drop)

/-- R29: without reset, OP is written only by a CMD write while idle, accepted or rejected, and records
`w[3:0]`; a dropped write does not change it. -/
def Obligations.OpRecordsTheLastWordTaken : Prop :=
  ∀ (prm : Params) (s t : State) (a : PortOp), resolve prm (hostPins s).access = .ok a →
    (hostPins s).rst = false → cycle prm s = .next t →
    (∀ w, s.st = .idle → a = .write 0#4 w → t.op = w.extractLsb' 0 4) ∧
    (s.st ≠ .idle ∨ (∀ w, a ≠ .write 0#4 w) → t.op = s.op)

/-- Without reset, the phase changes only when SETPH.* or SAMPLE_AC is taken while idle, or in a step of a
running command in one of the five stages of SAMPLE_AC (R27, R161). -/
def Obligations.PhaseChangesOnlyByItsCommands : Prop :=
  ∀ (prm : Params) (s t : State) (a : PortOp), resolve prm (hostPins s).access = .ok a →
    (hostPins s).rst = false → cycle prm s = .next t → t.phase ≠ s.phase →
    (s.st = .idle ∧ ∃ w i, a = .write 0#4 w ∧ decode w = .cmd i ∧
      (i = .setphOff ∨ i = .setphPos ∨ i = .setphNeg ∨ ∃ c, i = .sampleAc c)) ∨
    (s.st ≠ .idle ∧ (s.stage = .warm ∨ s.stage = .setp ∨ s.stage = .burp ∨ s.stage = .setn ∨
      s.stage = .burn))

/-- Without reset, the configuration does not change while a command runs (R65, R96). -/
def Obligations.ConfigurationIsFrozenWhileBusy : Prop :=
  ∀ (prm : Params) (s t : State), s.st ≠ .idle → (hostPins s).rst = false →
    cycle prm s = .next t →
    t.timeoutMs = s.timeoutMs ∧ t.warmupMs = s.warmupMs ∧ t.settleMs = s.settleMs

/-! ### Runs of many cycles -/

/-- A transaction with a conforming chip completes in the last of its `wait + 1 + 25(H+L)` cycles: RAW is the
chip's word with the top bit flipped, whatever `dout` is between the sample instants and whatever a calm host
does. A transaction that is not the burst's last starts the next with the full timeout; the last of READ_RAW
and AVERAGE completes the command with the floor of the sum over the count (R112 to R124, R126, R141). -/
def Obligations.TransactionsShiftTheChipWord : Prop :=
  ∀ (prm : Params) (s : State) (x : Transfer) (rd rt : List Bool), Calm prm s → s.st = .rw →
    stageHasBurst s.stage = true → s.n ≠ 0#8 → TransferOk prm s.tmo.toNat x →
    s.env.dout = x.dout ++ rd → s.env.tick = x.tick ++ rt →
    ∃ t, cycles prm (transferCycles prm x.wait) s = .next t ∧
      levels busy prm (transferCycles prm x.wait) s =
        List.replicate (transferCycles prm x.wait) true ∧
      t.raw = zext32 (fixup x.word) ∧ t.sh = x.word ∧ t.env.dout = rd ∧ t.env.tick = rt ∧
      (s.k.toNat + 1 < s.n.toNat →
        t.st = .rw ∧ t.tmo = s.timeoutMs ∧ t.k = s.k + 1#8 ∧
        t.acc = s.acc + zext32 (fixup x.word) ∧ t.n = s.n ∧ t.stage = s.stage ∧
        t.result = s.result ∧ t.valid = s.valid ∧ t.err = s.err ∧ t.phase = s.phase ∧
        t.valp = s.valp ∧ t.valn = s.valn) ∧
      (s.n.toNat ≤ s.k.toNat + 1 → s.stage = .raws ∨ s.stage = .avg →
        t.st = .idle ∧ t.valid = true ∧ t.err = .none ∧
        t.result = (s.acc + zext32 (fixup x.word)) / s.n.setWidth 32 ∧
        t.phase = s.phase ∧ t.valp = s.valp ∧ t.valn = s.valn)

/-- The `sck` waveform of a transaction: low in the ready wait, then exactly 25 pulses, each `H` cycles high and
`L` cycles low (R111, R115, R116, R117). -/
def Obligations.SckHasTwentyFivePulses : Prop :=
  ∀ (prm : Params) (s : State) (x : Transfer) (rd rt : List Bool), Calm prm s → s.st = .rw →
    s.sck = false → stageHasBurst s.stage = true → s.n ≠ 0#8 → TransferOk prm s.tmo.toNat x →
    s.env.dout = x.dout ++ rd → s.env.tick = x.tick ++ rt →
    levels (fun u => u.sck) prm (transferCycles prm x.wait) s =
      List.replicate (x.wait + 1) false ++
        (List.replicate 25 (List.replicate prm.H true ++ List.replicate prm.L false)).flatten

/-- With `dout` high throughout, the command ends with TIMEOUT in the cycle of the `tmo`-th tick and in none
before: RESULT = SENTINEL, VALID = 0, ERR = TIMEOUT, nothing of the shift is written, OP is kept; in the five
stages of SAMPLE_AC the phase goes Off, and in those of READ_RAW, AVERAGE and SAMPLE_DC it is kept (R100, R114,
R122, R145, R161, R173, R174). -/
def Obligations.TimeoutEndsTheCommand : Prop :=
  ∀ (prm : Params) (s : State) (ticks rd rt : List Bool), Calm prm s → s.st = .rw →
    ticks.count true + 1 = s.tmo.toNat →
    s.env.dout = List.replicate (ticks.length + 1) true ++ rd →
    s.env.tick = ticks ++ true :: rt →
    ∃ t, cycles prm (ticks.length + 1) s = .next t ∧
      levels busy prm (ticks.length + 1) s = List.replicate (ticks.length + 1) true ∧
      t.st = .idle ∧ t.valid = false ∧ t.err = .timeout ∧ t.result = 0x80000000#32 ∧
      t.raw = s.raw ∧ t.valp = s.valp ∧ t.valn = s.valn ∧ t.op = s.op ∧ t.sck = s.sck ∧
      (s.stage = .warm ∨ s.stage = .setp ∨ s.stage = .burp ∨ s.stage = .setn ∨ s.stage = .burn →
        t.phase = .off) ∧
      (s.stage = .raws ∨ s.stage = .avg ∨ s.stage = .dc → t.phase = s.phase)

/-- Without ticks a wait never ends: in the ready wait while `dout` stays high, and in a delay with `dly ≠ 0`,
the state of the block stays as it is for any number of cycles, so BUSY stays 1 (R202). -/
def Obligations.WithoutTicksAWaitNeverEnds : Prop :=
  ∀ (prm : Params) (k : Nat) (s : State) (rd rt : List Bool), Calm prm s →
    s.env.tick = List.replicate k false ++ rt →
    (s.st = .rw ∧ s.env.dout = List.replicate k true ++ rd) ∨ (s.st = .delay ∧ s.dly ≠ 0#16) →
    ∃ t, cycles prm k s = .next t ∧ sequencerPart t = sequencerPart s

/-- A delay ends in the cycle after its `dly`-th tick, or in its first cycle when `dly = 0`, whatever `dout` is;
its end is what `delay_done` does (R166, R167, R168, R170). -/
def Obligations.DelaysLastTheirTicks : Prop :=
  ∀ (prm : Params) (s u : State) (ticks rt : List Bool), Calm prm s → s.st = .delay →
    DelayTicks s.dly.toNat ticks → s.env.tick = ticks ++ rt →
    delayDone { s with dly := 0#16 } = .next u →
    ∃ t, cycles prm ticks.length s = .next t ∧ sequencerPart t = sequencerPart u ∧
      levels (fun v => decide (v.st = .delay ∧ v.stage = s.stage)) prm ticks.length s =
        List.replicate ticks.length true

/-- READ_RAW end to end: one transaction, RESULT = RAW = `zext32(sh xor 0x80_0000)`, VALID = 1, ERR = NONE,
OP = 1; BUSY is 1 in exactly the transaction's cycles; the phase, VALP and VALN are unchanged (R123, R125). -/
def Obligations.ReadRawReturnsTheSample : Prop :=
  ∀ (prm : Params) (s : State) (x : Transfer),
    Launched prm s 0x00000001#32 x.dout x.tick → TransferOk prm s.timeoutMs.toNat x →
    ∃ t, cycles prm (1 + transferCycles prm x.wait) s = .next t ∧
      levels busy prm (1 + transferCycles prm x.wait) s =
        false :: List.replicate (transferCycles prm x.wait) true ∧
      t.st = .idle ∧ t.valid = true ∧ t.err = .none ∧ t.op = 1#4 ∧
      t.result = zext32 (x.word ^^^ 0x800000#24) ∧ t.raw = zext32 (x.word ^^^ 0x800000#24) ∧
      t.phase = s.phase ∧ t.valp = s.valp ∧ t.valn = s.valn

/-- AVERAGE end to end: `c` transactions, RESULT is the floor of the mean of their raw samples, RAW the last of
them; BUSY is 1 in exactly the burst's cycles; the phase, VALP and VALN are unchanged (R146, R148, R224). -/
def Obligations.AverageReturnsTheFloorMean : Prop :=
  ∀ (prm : Params) (s : State) (c : BitVec 8) (xs : List Transfer) (y : Transfer),
    (xs ++ [y]).length = c.toNat →
    Launched prm s (0x00000002#32 ||| (c.setWidth 32 <<< 8))
      (burstDout (xs ++ [y])) (burstTick (xs ++ [y])) →
    (∀ x ∈ xs ++ [y], TransferOk prm s.timeoutMs.toNat x) →
    ∃ t, cycles prm (1 + burstCycles prm (xs ++ [y])) s = .next t ∧
      levels busy prm (1 + burstCycles prm (xs ++ [y])) s =
        false :: List.replicate (burstCycles prm (xs ++ [y])) true ∧
      t.st = .idle ∧ t.valid = true ∧ t.err = .none ∧ t.op = 2#4 ∧
      t.result.toNat = ((xs ++ [y]).map rawNat).sum / c.toNat ∧
      t.raw = zext32 (fixup y.word) ∧
      t.phase = s.phase ∧ t.valp = s.valp ∧ t.valn = s.valn

/-- AVERAGE of a constant returns it, for every count: no drift from rounding (R147). -/
def Obligations.AverageOfAConstantIsTheConstant : Prop :=
  ∀ (prm : Params) (s : State) (c : BitVec 8) (xs : List Transfer) (w : Sample),
    xs.length = c.toNat → c ≠ 0#8 → (∀ x ∈ xs, x.word = w) →
    Launched prm s (0x00000002#32 ||| (c.setWidth 32 <<< 8)) (burstDout xs) (burstTick xs) →
    (∀ x ∈ xs, TransferOk prm s.timeoutMs.toNat x) →
    ∃ t, cycles prm (1 + burstCycles prm xs) s = .next t ∧ t.valid = true ∧
      t.result = zext32 (w ^^^ 0x800000#24)

/-- SAMPLE_DC end to end: VALN is the mean `m` of the single burst, VALP is 0, RESULT is `m`; the phase is
unchanged (R174, R175, R224). -/
def Obligations.SampleDcReturnsTheMean : Prop :=
  ∀ (prm : Params) (s : State) (c : BitVec 8) (xs : List Transfer) (y : Transfer),
    (xs ++ [y]).length = c.toNat →
    Launched prm s (0x00000003#32 ||| (c.setWidth 32 <<< 8))
      (burstDout (xs ++ [y])) (burstTick (xs ++ [y])) →
    (∀ x ∈ xs ++ [y], TransferOk prm s.timeoutMs.toNat x) →
    ∃ t, cycles prm (1 + burstCycles prm (xs ++ [y])) s = .next t ∧
      levels busy prm (1 + burstCycles prm (xs ++ [y])) s =
        false :: List.replicate (burstCycles prm (xs ++ [y])) true ∧
      t.st = .idle ∧ t.valid = true ∧ t.err = .none ∧ t.op = 3#4 ∧
      t.valn.toNat = ((xs ++ [y]).map rawNat).sum / c.toNat ∧ t.valp = 0#32 ∧
      t.result = t.valn ∧ t.raw = zext32 (fixup y.word) ∧ t.phase = s.phase

/-- SAMPLE_AC end to end: warm-up, settle, Positive burst, settle, Negative burst; VALP and VALN are the floor
means of the two bursts, RESULT is the floor of half their difference, and the bridge is off again; BUSY is 1
in exactly the sequence's cycles (R165 to R172, R224). -/
def Obligations.SampleAcReturnsTheHalfDifference : Prop :=
  ∀ (prm : Params) (s : State) (c : BitVec 8) (a : AcSchedule),
    Launched prm s (0x00000013#32 ||| (c.setWidth 32 <<< 8)) (acDout a) (acTick a) →
    AcScheduleOk prm s c a →
    ∃ t, cycles prm (1 + (acPositiveCycles prm a + acNegativeCycles prm a)) s = .next t ∧
      levels busy prm (1 + (acPositiveCycles prm a + acNegativeCycles prm a)) s =
        false :: List.replicate (acPositiveCycles prm a + acNegativeCycles prm a) true ∧
      t.st = .idle ∧ t.valid = true ∧ t.err = .none ∧ t.op = 3#4 ∧ t.phase = .off ∧
      t.valp.toNat = (a.pos.map rawNat).sum / c.toNat ∧
      t.valn.toNat = (a.neg.map rawNat).sum / c.toNat ∧
      t.result.toInt = ((t.valn.toNat : Int) - t.valp.toNat).fdiv 2

/-- The lines during a successful SAMPLE_AC, from the cycle after its acceptance: the bridge is powered
throughout, the polarity is positive up to the last cycle of the Positive burst and reversed from the cycle
after it, and the cycle after the Negative burst has the bridge off and the polarity positive (R177). -/
def Obligations.LinesDuringSampleAc : Prop :=
  ∀ (prm : Params) (s : State) (c : BitVec 8) (a : AcSchedule),
    Launched prm s (0x00000013#32 ||| (c.setWidth 32 <<< 8)) (acDout a) (acTick a) →
    AcScheduleOk prm s c a →
    (levels (fun u => pwr prm u == prm.pwrOn) prm
        (1 + (acPositiveCycles prm a + acNegativeCycles prm a)) s).tail =
      List.replicate (acPositiveCycles prm a + acNegativeCycles prm a) true ∧
    (levels (fun u => pol prm u == prm.polNeg) prm
        (1 + (acPositiveCycles prm a + acNegativeCycles prm a)) s).tail =
      List.replicate (acPositiveCycles prm a) false ++
        List.replicate (acNegativeCycles prm a) true ∧
    ∃ t, cycles prm (1 + (acPositiveCycles prm a + acNegativeCycles prm a)) s = .next t ∧
      pwr prm t = !prm.pwrOn ∧ pol prm t = !prm.polNeg

/-- With a fair timebase, under a calm host: the ready wait ends, by ready or by timeout, whatever `dout` does;
every delay ends, in the next delay or in the burst of its stage; and from every state that meets the
invariant the block is idle after some number of cycles, so every running command ends (R202). -/
def Obligations.FairTicksEndEveryWait : Prop :=
  ∀ (prm : Params) (s : State), Calm prm s → FairTimebase prm s →
    (s.st = .rw → ∃ k t, cycles prm k s = .next t ∧
      (∀ j < k, ∀ u, cycles prm j s = .next u → u.st = .rw) ∧
      (t.st = .hi ∨
        t.st = .idle ∧ t.valid = false ∧ t.err = .timeout ∧ t.result = 0x80000000#32)) ∧
    (s.st = .delay → s.stage = .warm ∨ s.stage = .setp ∨ s.stage = .setn →
      ∃ k t, cycles prm k s = .next t ∧
      (∀ j < k, ∀ u, cycles prm j s = .next u → u.st = .delay ∧ u.stage = s.stage) ∧
      (s.stage = .warm → t.st = .delay ∧ t.stage = .setp) ∧
      (s.stage = .setp → t.st = .rw ∧ t.stage = .burp) ∧
      (s.stage = .setn → t.st = .rw ∧ t.stage = .burn)) ∧
    (Inv prm s → ∃ k t, cycles prm k s = .next t ∧ t.st = .idle)
end

