-- ==== Sys2Proof/Laws/State.lean ====
section
/-! SUPPORT. What each named update of the state does to each field: one lemma a field, true by `rfl`, so that
no later proof unfolds a record update. -/

namespace Sys2Proof.Machine

/-! `dropWrite` (R94). -/
@[simp] theorem dropWrite_st (s : State) : (dropWrite s).st = s.st := rfl
@[simp] theorem dropWrite_stage (s : State) : (dropWrite s).stage = s.stage := rfl
@[simp] theorem dropWrite_valid (s : State) : (dropWrite s).valid = s.valid := rfl
@[simp] theorem dropWrite_err (s : State) : (dropWrite s).err = s.err := rfl
@[simp] theorem dropWrite_drop (s : State) : (dropWrite s).drop = true := rfl
@[simp] theorem dropWrite_op (s : State) : (dropWrite s).op = s.op := rfl
@[simp] theorem dropWrite_phase (s : State) : (dropWrite s).phase = s.phase := rfl
@[simp] theorem dropWrite_sck (s : State) : (dropWrite s).sck = s.sck := rfl
@[simp] theorem dropWrite_result (s : State) : (dropWrite s).result = s.result := rfl
@[simp] theorem dropWrite_raw (s : State) : (dropWrite s).raw = s.raw := rfl
@[simp] theorem dropWrite_valp (s : State) : (dropWrite s).valp = s.valp := rfl
@[simp] theorem dropWrite_valn (s : State) : (dropWrite s).valn = s.valn := rfl
@[simp] theorem dropWrite_timeoutMs (s : State) : (dropWrite s).timeoutMs = s.timeoutMs := rfl
@[simp] theorem dropWrite_warmupMs (s : State) : (dropWrite s).warmupMs = s.warmupMs := rfl
@[simp] theorem dropWrite_settleMs (s : State) : (dropWrite s).settleMs = s.settleMs := rfl
@[simp] theorem dropWrite_sh (s : State) : (dropWrite s).sh = s.sh := rfl
@[simp] theorem dropWrite_acc (s : State) : (dropWrite s).acc = s.acc := rfl
@[simp] theorem dropWrite_n (s : State) : (dropWrite s).n = s.n := rfl
@[simp] theorem dropWrite_k (s : State) : (dropWrite s).k = s.k := rfl
@[simp] theorem dropWrite_p (s : State) : (dropWrite s).p = s.p := rfl
@[simp] theorem dropWrite_c (s : State) : (dropWrite s).c = s.c := rfl
@[simp] theorem dropWrite_tmo (s : State) : (dropWrite s).tmo = s.tmo := rfl
@[simp] theorem dropWrite_dly (s : State) : (dropWrite s).dly = s.dly := rfl
@[simp] theorem dropWrite_env (s : State) : (dropWrite s).env = s.env := rfl

/-! `acceptHead` (R92). -/
@[simp] theorem acceptHead_st (w : Word) (s : State) : (acceptHead w s).st = s.st := rfl
@[simp] theorem acceptHead_stage (w : Word) (s : State) : (acceptHead w s).stage = s.stage := rfl
@[simp] theorem acceptHead_valid (w : Word) (s : State) : (acceptHead w s).valid = false := rfl
@[simp] theorem acceptHead_err (w : Word) (s : State) : (acceptHead w s).err = s.err := rfl
@[simp] theorem acceptHead_drop (w : Word) (s : State) : (acceptHead w s).drop = false := rfl
@[simp] theorem acceptHead_op (w : Word) (s : State) : (acceptHead w s).op = opField w := rfl
@[simp] theorem acceptHead_phase (w : Word) (s : State) : (acceptHead w s).phase = s.phase := rfl
@[simp] theorem acceptHead_sck (w : Word) (s : State) : (acceptHead w s).sck = s.sck := rfl
@[simp] theorem acceptHead_result (w : Word) (s : State) : (acceptHead w s).result = s.result := rfl
@[simp] theorem acceptHead_raw (w : Word) (s : State) : (acceptHead w s).raw = s.raw := rfl
@[simp] theorem acceptHead_valp (w : Word) (s : State) : (acceptHead w s).valp = s.valp := rfl
@[simp] theorem acceptHead_valn (w : Word) (s : State) : (acceptHead w s).valn = s.valn := rfl
@[simp] theorem acceptHead_timeoutMs (w : Word) (s : State) : (acceptHead w s).timeoutMs = s.timeoutMs := rfl
@[simp] theorem acceptHead_warmupMs (w : Word) (s : State) : (acceptHead w s).warmupMs = s.warmupMs := rfl
@[simp] theorem acceptHead_settleMs (w : Word) (s : State) : (acceptHead w s).settleMs = s.settleMs := rfl
@[simp] theorem acceptHead_sh (w : Word) (s : State) : (acceptHead w s).sh = s.sh := rfl
@[simp] theorem acceptHead_acc (w : Word) (s : State) : (acceptHead w s).acc = s.acc := rfl
@[simp] theorem acceptHead_n (w : Word) (s : State) : (acceptHead w s).n = s.n := rfl
@[simp] theorem acceptHead_k (w : Word) (s : State) : (acceptHead w s).k = s.k := rfl
@[simp] theorem acceptHead_p (w : Word) (s : State) : (acceptHead w s).p = s.p := rfl
@[simp] theorem acceptHead_c (w : Word) (s : State) : (acceptHead w s).c = s.c := rfl
@[simp] theorem acceptHead_tmo (w : Word) (s : State) : (acceptHead w s).tmo = s.tmo := rfl
@[simp] theorem acceptHead_dly (w : Word) (s : State) : (acceptHead w s).dly = s.dly := rfl
@[simp] theorem acceptHead_env (w : Word) (s : State) : (acceptHead w s).env = s.env := rfl

/-! `reject` (R92). -/
@[simp] theorem reject_st (e : Err) (w : Word) (s : State) : (reject e w s).st = s.st := rfl
@[simp] theorem reject_stage (e : Err) (w : Word) (s : State) : (reject e w s).stage = s.stage := rfl
@[simp] theorem reject_valid (e : Err) (w : Word) (s : State) : (reject e w s).valid = false := rfl
@[simp] theorem reject_err (e : Err) (w : Word) (s : State) : (reject e w s).err = e := rfl
@[simp] theorem reject_drop (e : Err) (w : Word) (s : State) : (reject e w s).drop = false := rfl
@[simp] theorem reject_op (e : Err) (w : Word) (s : State) : (reject e w s).op = opField w := rfl
@[simp] theorem reject_phase (e : Err) (w : Word) (s : State) : (reject e w s).phase = s.phase := rfl
@[simp] theorem reject_sck (e : Err) (w : Word) (s : State) : (reject e w s).sck = s.sck := rfl
@[simp] theorem reject_result (e : Err) (w : Word) (s : State) : (reject e w s).result = sentinel := rfl
@[simp] theorem reject_raw (e : Err) (w : Word) (s : State) : (reject e w s).raw = s.raw := rfl
@[simp] theorem reject_valp (e : Err) (w : Word) (s : State) : (reject e w s).valp = s.valp := rfl
@[simp] theorem reject_valn (e : Err) (w : Word) (s : State) : (reject e w s).valn = s.valn := rfl
@[simp] theorem reject_timeoutMs (e : Err) (w : Word) (s : State) : (reject e w s).timeoutMs = s.timeoutMs := rfl
@[simp] theorem reject_warmupMs (e : Err) (w : Word) (s : State) : (reject e w s).warmupMs = s.warmupMs := rfl
@[simp] theorem reject_settleMs (e : Err) (w : Word) (s : State) : (reject e w s).settleMs = s.settleMs := rfl
@[simp] theorem reject_sh (e : Err) (w : Word) (s : State) : (reject e w s).sh = s.sh := rfl
@[simp] theorem reject_acc (e : Err) (w : Word) (s : State) : (reject e w s).acc = s.acc := rfl
@[simp] theorem reject_n (e : Err) (w : Word) (s : State) : (reject e w s).n = s.n := rfl
@[simp] theorem reject_k (e : Err) (w : Word) (s : State) : (reject e w s).k = s.k := rfl
@[simp] theorem reject_p (e : Err) (w : Word) (s : State) : (reject e w s).p = s.p := rfl
@[simp] theorem reject_c (e : Err) (w : Word) (s : State) : (reject e w s).c = s.c := rfl
@[simp] theorem reject_tmo (e : Err) (w : Word) (s : State) : (reject e w s).tmo = s.tmo := rfl
@[simp] theorem reject_dly (e : Err) (w : Word) (s : State) : (reject e w s).dly = s.dly := rfl
@[simp] theorem reject_env (e : Err) (w : Word) (s : State) : (reject e w s).env = s.env := rfl

/-! `accepted` (R92). -/
@[simp] theorem accepted_st (w : Word) (s : State) : (accepted w s).st = s.st := rfl
@[simp] theorem accepted_stage (w : Word) (s : State) : (accepted w s).stage = s.stage := rfl
@[simp] theorem accepted_valid (w : Word) (s : State) : (accepted w s).valid = false := rfl
@[simp] theorem accepted_err (w : Word) (s : State) : (accepted w s).err = .none := rfl
@[simp] theorem accepted_drop (w : Word) (s : State) : (accepted w s).drop = false := rfl
@[simp] theorem accepted_op (w : Word) (s : State) : (accepted w s).op = opField w := rfl
@[simp] theorem accepted_phase (w : Word) (s : State) : (accepted w s).phase = s.phase := rfl
@[simp] theorem accepted_sck (w : Word) (s : State) : (accepted w s).sck = s.sck := rfl
@[simp] theorem accepted_result (w : Word) (s : State) : (accepted w s).result = s.result := rfl
@[simp] theorem accepted_raw (w : Word) (s : State) : (accepted w s).raw = s.raw := rfl
@[simp] theorem accepted_valp (w : Word) (s : State) : (accepted w s).valp = s.valp := rfl
@[simp] theorem accepted_valn (w : Word) (s : State) : (accepted w s).valn = s.valn := rfl
@[simp] theorem accepted_timeoutMs (w : Word) (s : State) : (accepted w s).timeoutMs = s.timeoutMs := rfl
@[simp] theorem accepted_warmupMs (w : Word) (s : State) : (accepted w s).warmupMs = s.warmupMs := rfl
@[simp] theorem accepted_settleMs (w : Word) (s : State) : (accepted w s).settleMs = s.settleMs := rfl
@[simp] theorem accepted_sh (w : Word) (s : State) : (accepted w s).sh = s.sh := rfl
@[simp] theorem accepted_acc (w : Word) (s : State) : (accepted w s).acc = s.acc := rfl
@[simp] theorem accepted_n (w : Word) (s : State) : (accepted w s).n = s.n := rfl
@[simp] theorem accepted_k (w : Word) (s : State) : (accepted w s).k = s.k := rfl
@[simp] theorem accepted_p (w : Word) (s : State) : (accepted w s).p = s.p := rfl
@[simp] theorem accepted_c (w : Word) (s : State) : (accepted w s).c = s.c := rfl
@[simp] theorem accepted_tmo (w : Word) (s : State) : (accepted w s).tmo = s.tmo := rfl
@[simp] theorem accepted_dly (w : Word) (s : State) : (accepted w s).dly = s.dly := rfl
@[simp] theorem accepted_env (w : Word) (s : State) : (accepted w s).env = s.env := rfl

/-! `completeOk` (R100). -/
@[simp] theorem completeOk_st (v : Word) (s : State) : (completeOk v s).st = .idle := rfl
@[simp] theorem completeOk_stage (v : Word) (s : State) : (completeOk v s).stage = s.stage := rfl
@[simp] theorem completeOk_valid (v : Word) (s : State) : (completeOk v s).valid = true := rfl
@[simp] theorem completeOk_err (v : Word) (s : State) : (completeOk v s).err = .none := rfl
@[simp] theorem completeOk_drop (v : Word) (s : State) : (completeOk v s).drop = s.drop := rfl
@[simp] theorem completeOk_op (v : Word) (s : State) : (completeOk v s).op = s.op := rfl
@[simp] theorem completeOk_phase (v : Word) (s : State) : (completeOk v s).phase = s.phase := rfl
@[simp] theorem completeOk_sck (v : Word) (s : State) : (completeOk v s).sck = s.sck := rfl
@[simp] theorem completeOk_result (v : Word) (s : State) : (completeOk v s).result = v := rfl
@[simp] theorem completeOk_raw (v : Word) (s : State) : (completeOk v s).raw = s.raw := rfl
@[simp] theorem completeOk_valp (v : Word) (s : State) : (completeOk v s).valp = s.valp := rfl
@[simp] theorem completeOk_valn (v : Word) (s : State) : (completeOk v s).valn = s.valn := rfl
@[simp] theorem completeOk_timeoutMs (v : Word) (s : State) : (completeOk v s).timeoutMs = s.timeoutMs := rfl
@[simp] theorem completeOk_warmupMs (v : Word) (s : State) : (completeOk v s).warmupMs = s.warmupMs := rfl
@[simp] theorem completeOk_settleMs (v : Word) (s : State) : (completeOk v s).settleMs = s.settleMs := rfl
@[simp] theorem completeOk_sh (v : Word) (s : State) : (completeOk v s).sh = s.sh := rfl
@[simp] theorem completeOk_acc (v : Word) (s : State) : (completeOk v s).acc = s.acc := rfl
@[simp] theorem completeOk_n (v : Word) (s : State) : (completeOk v s).n = s.n := rfl
@[simp] theorem completeOk_k (v : Word) (s : State) : (completeOk v s).k = s.k := rfl
@[simp] theorem completeOk_p (v : Word) (s : State) : (completeOk v s).p = s.p := rfl
@[simp] theorem completeOk_c (v : Word) (s : State) : (completeOk v s).c = s.c := rfl
@[simp] theorem completeOk_tmo (v : Word) (s : State) : (completeOk v s).tmo = s.tmo := rfl
@[simp] theorem completeOk_dly (v : Word) (s : State) : (completeOk v s).dly = s.dly := rfl
@[simp] theorem completeOk_env (v : Word) (s : State) : (completeOk v s).env = s.env := rfl

/-! `completeErr` (R100). -/
@[simp] theorem completeErr_st (e : Err) (s : State) : (completeErr e s).st = .idle := rfl
@[simp] theorem completeErr_stage (e : Err) (s : State) : (completeErr e s).stage = s.stage := rfl
@[simp] theorem completeErr_valid (e : Err) (s : State) : (completeErr e s).valid = false := rfl
@[simp] theorem completeErr_err (e : Err) (s : State) : (completeErr e s).err = e := rfl
@[simp] theorem completeErr_drop (e : Err) (s : State) : (completeErr e s).drop = s.drop := rfl
@[simp] theorem completeErr_op (e : Err) (s : State) : (completeErr e s).op = s.op := rfl
@[simp] theorem completeErr_phase (e : Err) (s : State) : (completeErr e s).phase = if stageOfAc s.stage then .off else s.phase := rfl
@[simp] theorem completeErr_sck (e : Err) (s : State) : (completeErr e s).sck = s.sck := rfl
@[simp] theorem completeErr_result (e : Err) (s : State) : (completeErr e s).result = sentinel := rfl
@[simp] theorem completeErr_raw (e : Err) (s : State) : (completeErr e s).raw = s.raw := rfl
@[simp] theorem completeErr_valp (e : Err) (s : State) : (completeErr e s).valp = s.valp := rfl
@[simp] theorem completeErr_valn (e : Err) (s : State) : (completeErr e s).valn = s.valn := rfl
@[simp] theorem completeErr_timeoutMs (e : Err) (s : State) : (completeErr e s).timeoutMs = s.timeoutMs := rfl
@[simp] theorem completeErr_warmupMs (e : Err) (s : State) : (completeErr e s).warmupMs = s.warmupMs := rfl
@[simp] theorem completeErr_settleMs (e : Err) (s : State) : (completeErr e s).settleMs = s.settleMs := rfl
@[simp] theorem completeErr_sh (e : Err) (s : State) : (completeErr e s).sh = s.sh := rfl
@[simp] theorem completeErr_acc (e : Err) (s : State) : (completeErr e s).acc = s.acc := rfl
@[simp] theorem completeErr_n (e : Err) (s : State) : (completeErr e s).n = s.n := rfl
@[simp] theorem completeErr_k (e : Err) (s : State) : (completeErr e s).k = s.k := rfl
@[simp] theorem completeErr_p (e : Err) (s : State) : (completeErr e s).p = s.p := rfl
@[simp] theorem completeErr_c (e : Err) (s : State) : (completeErr e s).c = s.c := rfl
@[simp] theorem completeErr_tmo (e : Err) (s : State) : (completeErr e s).tmo = s.tmo := rfl
@[simp] theorem completeErr_dly (e : Err) (s : State) : (completeErr e s).dly = s.dly := rfl
@[simp] theorem completeErr_env (e : Err) (s : State) : (completeErr e s).env = s.env := rfl

/-! `beginTransaction` (R112). -/
@[simp] theorem beginTransaction_st (s : State) : (beginTransaction s).st = .rw := rfl
@[simp] theorem beginTransaction_stage (s : State) : (beginTransaction s).stage = s.stage := rfl
@[simp] theorem beginTransaction_valid (s : State) : (beginTransaction s).valid = s.valid := rfl
@[simp] theorem beginTransaction_err (s : State) : (beginTransaction s).err = s.err := rfl
@[simp] theorem beginTransaction_drop (s : State) : (beginTransaction s).drop = s.drop := rfl
@[simp] theorem beginTransaction_op (s : State) : (beginTransaction s).op = s.op := rfl
@[simp] theorem beginTransaction_phase (s : State) : (beginTransaction s).phase = s.phase := rfl
@[simp] theorem beginTransaction_sck (s : State) : (beginTransaction s).sck = s.sck := rfl
@[simp] theorem beginTransaction_result (s : State) : (beginTransaction s).result = s.result := rfl
@[simp] theorem beginTransaction_raw (s : State) : (beginTransaction s).raw = s.raw := rfl
@[simp] theorem beginTransaction_valp (s : State) : (beginTransaction s).valp = s.valp := rfl
@[simp] theorem beginTransaction_valn (s : State) : (beginTransaction s).valn = s.valn := rfl
@[simp] theorem beginTransaction_timeoutMs (s : State) : (beginTransaction s).timeoutMs = s.timeoutMs := rfl
@[simp] theorem beginTransaction_warmupMs (s : State) : (beginTransaction s).warmupMs = s.warmupMs := rfl
@[simp] theorem beginTransaction_settleMs (s : State) : (beginTransaction s).settleMs = s.settleMs := rfl
@[simp] theorem beginTransaction_sh (s : State) : (beginTransaction s).sh = s.sh := rfl
@[simp] theorem beginTransaction_acc (s : State) : (beginTransaction s).acc = s.acc := rfl
@[simp] theorem beginTransaction_n (s : State) : (beginTransaction s).n = s.n := rfl
@[simp] theorem beginTransaction_k (s : State) : (beginTransaction s).k = s.k := rfl
@[simp] theorem beginTransaction_p (s : State) : (beginTransaction s).p = s.p := rfl
@[simp] theorem beginTransaction_c (s : State) : (beginTransaction s).c = s.c := rfl
@[simp] theorem beginTransaction_tmo (s : State) : (beginTransaction s).tmo = s.timeoutMs := rfl
@[simp] theorem beginTransaction_dly (s : State) : (beginTransaction s).dly = s.dly := rfl
@[simp] theorem beginTransaction_env (s : State) : (beginTransaction s).env = s.env := rfl

/-! `burstStart` (R140). -/
@[simp] theorem burstStart_st (m : BitVec 8) (s : State) : (burstStart m s).st = .rw := rfl
@[simp] theorem burstStart_stage (m : BitVec 8) (s : State) : (burstStart m s).stage = s.stage := rfl
@[simp] theorem burstStart_valid (m : BitVec 8) (s : State) : (burstStart m s).valid = s.valid := rfl
@[simp] theorem burstStart_err (m : BitVec 8) (s : State) : (burstStart m s).err = s.err := rfl
@[simp] theorem burstStart_drop (m : BitVec 8) (s : State) : (burstStart m s).drop = s.drop := rfl
@[simp] theorem burstStart_op (m : BitVec 8) (s : State) : (burstStart m s).op = s.op := rfl
@[simp] theorem burstStart_phase (m : BitVec 8) (s : State) : (burstStart m s).phase = s.phase := rfl
@[simp] theorem burstStart_sck (m : BitVec 8) (s : State) : (burstStart m s).sck = s.sck := rfl
@[simp] theorem burstStart_result (m : BitVec 8) (s : State) : (burstStart m s).result = s.result := rfl
@[simp] theorem burstStart_raw (m : BitVec 8) (s : State) : (burstStart m s).raw = s.raw := rfl
@[simp] theorem burstStart_valp (m : BitVec 8) (s : State) : (burstStart m s).valp = s.valp := rfl
@[simp] theorem burstStart_valn (m : BitVec 8) (s : State) : (burstStart m s).valn = s.valn := rfl
@[simp] theorem burstStart_timeoutMs (m : BitVec 8) (s : State) : (burstStart m s).timeoutMs = s.timeoutMs := rfl
@[simp] theorem burstStart_warmupMs (m : BitVec 8) (s : State) : (burstStart m s).warmupMs = s.warmupMs := rfl
@[simp] theorem burstStart_settleMs (m : BitVec 8) (s : State) : (burstStart m s).settleMs = s.settleMs := rfl
@[simp] theorem burstStart_sh (m : BitVec 8) (s : State) : (burstStart m s).sh = s.sh := rfl
@[simp] theorem burstStart_acc (m : BitVec 8) (s : State) : (burstStart m s).acc = 0#32 := rfl
@[simp] theorem burstStart_n (m : BitVec 8) (s : State) : (burstStart m s).n = m := rfl
@[simp] theorem burstStart_k (m : BitVec 8) (s : State) : (burstStart m s).k = 0#8 := rfl
@[simp] theorem burstStart_p (m : BitVec 8) (s : State) : (burstStart m s).p = s.p := rfl
@[simp] theorem burstStart_c (m : BitVec 8) (s : State) : (burstStart m s).c = s.c := rfl
@[simp] theorem burstStart_tmo (m : BitVec 8) (s : State) : (burstStart m s).tmo = s.timeoutMs := rfl
@[simp] theorem burstStart_dly (m : BitVec 8) (s : State) : (burstStart m s).dly = s.dly := rfl
@[simp] theorem burstStart_env (m : BitVec 8) (s : State) : (burstStart m s).env = s.env := rfl

/-! `delayStart` (R165). -/
@[simp] theorem delayStart_st (g : Stage) (d : BitVec 16) (s : State) : (delayStart g d s).st = .delay := rfl
@[simp] theorem delayStart_stage (g : Stage) (d : BitVec 16) (s : State) : (delayStart g d s).stage = g := rfl
@[simp] theorem delayStart_valid (g : Stage) (d : BitVec 16) (s : State) : (delayStart g d s).valid = s.valid := rfl
@[simp] theorem delayStart_err (g : Stage) (d : BitVec 16) (s : State) : (delayStart g d s).err = s.err := rfl
@[simp] theorem delayStart_drop (g : Stage) (d : BitVec 16) (s : State) : (delayStart g d s).drop = s.drop := rfl
@[simp] theorem delayStart_op (g : Stage) (d : BitVec 16) (s : State) : (delayStart g d s).op = s.op := rfl
@[simp] theorem delayStart_phase (g : Stage) (d : BitVec 16) (s : State) : (delayStart g d s).phase = s.phase := rfl
@[simp] theorem delayStart_sck (g : Stage) (d : BitVec 16) (s : State) : (delayStart g d s).sck = s.sck := rfl
@[simp] theorem delayStart_result (g : Stage) (d : BitVec 16) (s : State) : (delayStart g d s).result = s.result := rfl
@[simp] theorem delayStart_raw (g : Stage) (d : BitVec 16) (s : State) : (delayStart g d s).raw = s.raw := rfl
@[simp] theorem delayStart_valp (g : Stage) (d : BitVec 16) (s : State) : (delayStart g d s).valp = s.valp := rfl
@[simp] theorem delayStart_valn (g : Stage) (d : BitVec 16) (s : State) : (delayStart g d s).valn = s.valn := rfl
@[simp] theorem delayStart_timeoutMs (g : Stage) (d : BitVec 16) (s : State) : (delayStart g d s).timeoutMs = s.timeoutMs := rfl
@[simp] theorem delayStart_warmupMs (g : Stage) (d : BitVec 16) (s : State) : (delayStart g d s).warmupMs = s.warmupMs := rfl
@[simp] theorem delayStart_settleMs (g : Stage) (d : BitVec 16) (s : State) : (delayStart g d s).settleMs = s.settleMs := rfl
@[simp] theorem delayStart_sh (g : Stage) (d : BitVec 16) (s : State) : (delayStart g d s).sh = s.sh := rfl
@[simp] theorem delayStart_acc (g : Stage) (d : BitVec 16) (s : State) : (delayStart g d s).acc = s.acc := rfl
@[simp] theorem delayStart_n (g : Stage) (d : BitVec 16) (s : State) : (delayStart g d s).n = s.n := rfl
@[simp] theorem delayStart_k (g : Stage) (d : BitVec 16) (s : State) : (delayStart g d s).k = s.k := rfl
@[simp] theorem delayStart_p (g : Stage) (d : BitVec 16) (s : State) : (delayStart g d s).p = s.p := rfl
@[simp] theorem delayStart_c (g : Stage) (d : BitVec 16) (s : State) : (delayStart g d s).c = s.c := rfl
@[simp] theorem delayStart_tmo (g : Stage) (d : BitVec 16) (s : State) : (delayStart g d s).tmo = s.tmo := rfl
@[simp] theorem delayStart_dly (g : Stage) (d : BitVec 16) (s : State) : (delayStart g d s).dly = d := rfl
@[simp] theorem delayStart_env (g : Stage) (d : BitVec 16) (s : State) : (delayStart g d s).env = s.env := rfl

/-! `resetBlock` (R210). -/
@[simp] theorem resetBlock_st (s : State) : (resetBlock s).st = .idle := rfl
@[simp] theorem resetBlock_stage (s : State) : (resetBlock s).stage = .raws := rfl
@[simp] theorem resetBlock_valid (s : State) : (resetBlock s).valid = false := rfl
@[simp] theorem resetBlock_err (s : State) : (resetBlock s).err = .none := rfl
@[simp] theorem resetBlock_drop (s : State) : (resetBlock s).drop = false := rfl
@[simp] theorem resetBlock_op (s : State) : (resetBlock s).op = 0#4 := rfl
@[simp] theorem resetBlock_phase (s : State) : (resetBlock s).phase = .off := rfl
@[simp] theorem resetBlock_sck (s : State) : (resetBlock s).sck = false := rfl
@[simp] theorem resetBlock_result (s : State) : (resetBlock s).result = sentinel := rfl
@[simp] theorem resetBlock_raw (s : State) : (resetBlock s).raw = 0#32 := rfl
@[simp] theorem resetBlock_valp (s : State) : (resetBlock s).valp = 0#32 := rfl
@[simp] theorem resetBlock_valn (s : State) : (resetBlock s).valn = 0#32 := rfl
@[simp] theorem resetBlock_timeoutMs (s : State) : (resetBlock s).timeoutMs = 3000#16 := rfl
@[simp] theorem resetBlock_warmupMs (s : State) : (resetBlock s).warmupMs = 5000#16 := rfl
@[simp] theorem resetBlock_settleMs (s : State) : (resetBlock s).settleMs = 10#16 := rfl
@[simp] theorem resetBlock_sh (s : State) : (resetBlock s).sh = 0#24 := rfl
@[simp] theorem resetBlock_acc (s : State) : (resetBlock s).acc = 0#32 := rfl
@[simp] theorem resetBlock_n (s : State) : (resetBlock s).n = 0#8 := rfl
@[simp] theorem resetBlock_k (s : State) : (resetBlock s).k = 0#8 := rfl
@[simp] theorem resetBlock_p (s : State) : (resetBlock s).p = 0#5 := rfl
@[simp] theorem resetBlock_c (s : State) : (resetBlock s).c = 0 := rfl
@[simp] theorem resetBlock_tmo (s : State) : (resetBlock s).tmo = 0#16 := rfl
@[simp] theorem resetBlock_dly (s : State) : (resetBlock s).dly = 0#16 := rfl
@[simp] theorem resetBlock_env (s : State) : (resetBlock s).env = s.env := rfl

/-! `endCycle` (R90). -/
@[simp] theorem endCycle_st (r : Word) (b : Bool) (s : State) : (endCycle r b s).st = s.st := rfl
@[simp] theorem endCycle_stage (r : Word) (b : Bool) (s : State) : (endCycle r b s).stage = s.stage := rfl
@[simp] theorem endCycle_valid (r : Word) (b : Bool) (s : State) : (endCycle r b s).valid = s.valid := rfl
@[simp] theorem endCycle_err (r : Word) (b : Bool) (s : State) : (endCycle r b s).err = s.err := rfl
@[simp] theorem endCycle_drop (r : Word) (b : Bool) (s : State) : (endCycle r b s).drop = s.drop := rfl
@[simp] theorem endCycle_op (r : Word) (b : Bool) (s : State) : (endCycle r b s).op = s.op := rfl
@[simp] theorem endCycle_phase (r : Word) (b : Bool) (s : State) : (endCycle r b s).phase = s.phase := rfl
@[simp] theorem endCycle_sck (r : Word) (b : Bool) (s : State) : (endCycle r b s).sck = s.sck := rfl
@[simp] theorem endCycle_result (r : Word) (b : Bool) (s : State) : (endCycle r b s).result = s.result := rfl
@[simp] theorem endCycle_raw (r : Word) (b : Bool) (s : State) : (endCycle r b s).raw = s.raw := rfl
@[simp] theorem endCycle_valp (r : Word) (b : Bool) (s : State) : (endCycle r b s).valp = s.valp := rfl
@[simp] theorem endCycle_valn (r : Word) (b : Bool) (s : State) : (endCycle r b s).valn = s.valn := rfl
@[simp] theorem endCycle_timeoutMs (r : Word) (b : Bool) (s : State) : (endCycle r b s).timeoutMs = s.timeoutMs := rfl
@[simp] theorem endCycle_warmupMs (r : Word) (b : Bool) (s : State) : (endCycle r b s).warmupMs = s.warmupMs := rfl
@[simp] theorem endCycle_settleMs (r : Word) (b : Bool) (s : State) : (endCycle r b s).settleMs = s.settleMs := rfl
@[simp] theorem endCycle_sh (r : Word) (b : Bool) (s : State) : (endCycle r b s).sh = s.sh := rfl
@[simp] theorem endCycle_acc (r : Word) (b : Bool) (s : State) : (endCycle r b s).acc = s.acc := rfl
@[simp] theorem endCycle_n (r : Word) (b : Bool) (s : State) : (endCycle r b s).n = s.n := rfl
@[simp] theorem endCycle_k (r : Word) (b : Bool) (s : State) : (endCycle r b s).k = s.k := rfl
@[simp] theorem endCycle_p (r : Word) (b : Bool) (s : State) : (endCycle r b s).p = s.p := rfl
@[simp] theorem endCycle_c (r : Word) (b : Bool) (s : State) : (endCycle r b s).c = s.c := rfl
@[simp] theorem endCycle_tmo (r : Word) (b : Bool) (s : State) : (endCycle r b s).tmo = s.tmo := rfl
@[simp] theorem endCycle_dly (r : Word) (b : Bool) (s : State) : (endCycle r b s).dly = s.dly := rfl
@[simp] theorem endCycle_env (r : Word) (b : Bool) (s : State) : (endCycle r b s).env = envNext r b s := rfl

/-! `hostDoes` (R52). -/
@[simp] theorem hostDoes_st (q : HostPins) (s : State) : (hostDoes q s).st = s.st := rfl
@[simp] theorem hostDoes_stage (q : HostPins) (s : State) : (hostDoes q s).stage = s.stage := rfl
@[simp] theorem hostDoes_valid (q : HostPins) (s : State) : (hostDoes q s).valid = s.valid := rfl
@[simp] theorem hostDoes_err (q : HostPins) (s : State) : (hostDoes q s).err = s.err := rfl
@[simp] theorem hostDoes_drop (q : HostPins) (s : State) : (hostDoes q s).drop = s.drop := rfl
@[simp] theorem hostDoes_op (q : HostPins) (s : State) : (hostDoes q s).op = s.op := rfl
@[simp] theorem hostDoes_phase (q : HostPins) (s : State) : (hostDoes q s).phase = s.phase := rfl
@[simp] theorem hostDoes_sck (q : HostPins) (s : State) : (hostDoes q s).sck = s.sck := rfl
@[simp] theorem hostDoes_result (q : HostPins) (s : State) : (hostDoes q s).result = s.result := rfl
@[simp] theorem hostDoes_raw (q : HostPins) (s : State) : (hostDoes q s).raw = s.raw := rfl
@[simp] theorem hostDoes_valp (q : HostPins) (s : State) : (hostDoes q s).valp = s.valp := rfl
@[simp] theorem hostDoes_valn (q : HostPins) (s : State) : (hostDoes q s).valn = s.valn := rfl
@[simp] theorem hostDoes_timeoutMs (q : HostPins) (s : State) : (hostDoes q s).timeoutMs = s.timeoutMs := rfl
@[simp] theorem hostDoes_warmupMs (q : HostPins) (s : State) : (hostDoes q s).warmupMs = s.warmupMs := rfl
@[simp] theorem hostDoes_settleMs (q : HostPins) (s : State) : (hostDoes q s).settleMs = s.settleMs := rfl
@[simp] theorem hostDoes_sh (q : HostPins) (s : State) : (hostDoes q s).sh = s.sh := rfl
@[simp] theorem hostDoes_acc (q : HostPins) (s : State) : (hostDoes q s).acc = s.acc := rfl
@[simp] theorem hostDoes_n (q : HostPins) (s : State) : (hostDoes q s).n = s.n := rfl
@[simp] theorem hostDoes_k (q : HostPins) (s : State) : (hostDoes q s).k = s.k := rfl
@[simp] theorem hostDoes_p (q : HostPins) (s : State) : (hostDoes q s).p = s.p := rfl
@[simp] theorem hostDoes_c (q : HostPins) (s : State) : (hostDoes q s).c = s.c := rfl
@[simp] theorem hostDoes_tmo (q : HostPins) (s : State) : (hostDoes q s).tmo = s.tmo := rfl
@[simp] theorem hostDoes_dly (q : HostPins) (s : State) : (hostDoes q s).dly = s.dly := rfl
@[simp] theorem hostDoes_env (q : HostPins) (s : State) : (hostDoes q s).env = { s.env with host := .pins q :: s.env.host.tail } := rfl

end Sys2Proof.Machine
end

