-- ==== Sys2Proof/WellFormed.lean ====
section
/-! DEFINITION. Which command terms carry a legal operand (spec/30_encoding.md R73). -/

namespace Sys2Proof

/-- The operand of a command lies in the range R73 calls legal: "The legal values are 1 to 255."
A command outside it still decodes and runs: it ends with PARAM (R73, R76), so no statement about
decoding or execution takes `wf` as a premise. -/
def Instr.wf : Instr → Bool
  | .nop => true
  | .readRaw => true
  | .average c => c ≠ 0#8
  | .sampleDc c => c ≠ 0#8
  | .sampleAc c => c ≠ 0#8
  | .setphOff => true
  | .setphPos => true
  | .setphNeg => true

end Sys2Proof
end

