-- ==== Sys2Proof/Laws/Ops.lean ====
section
/-! SUPPORT. What each shared operation can do, said once: the sequencing of answers, the three fates of a
command word, and the parameter check. -/

namespace Sys2Proof.Machine

@[simp] theorem andThen_next (s : State) (f : State → Answer) : andThen (.next s) f = f s := rfl

@[simp] theorem andThen_fault (r : Fault) (f : State → Answer) :
    andThen (.fault r) f = .fault r := rfl

@[simp] theorem andThen_refused (r : Refusal) (f : State → Answer) :
    andThen (.refused r) f = .refused r := rfl

/-- A sequence answers a next state exactly when its parts do. -/
theorem andThen_eq_next {o : Answer} {f : State → Answer} {t : State} :
    andThen o f = .next t ↔ ∃ s, o = .next s ∧ f s = .next t := by
  cases o <;> simp

theorem andThen_assoc (o : Answer) (f g : State → Answer) :
    andThen (andThen o f) g = andThen o fun s => andThen (f s) g := by
  cases o <;> rfl

/-- While idle with `param_ok`, the command is accepted and starts (R92). -/
theorem issue_of_ok {i : Instr} {s : State} (start : State → State) (hi : s.st = .idle)
    (hp : paramOk i s = true) : issue i start s = start (accepted (encode i) s) := by
  simp [issue, hi, hp]

/-- While idle without `param_ok`, the command ends with PARAM (R76, R92). -/
theorem issue_of_bad {i : Instr} {s : State} (start : State → State) (hi : s.st = .idle)
    (hp : paramOk i s = false) : issue i start s = reject .param (encode i) s := by
  simp [issue, hi, hp]

/-- While a command runs, the word is dropped (R94). -/
theorem issue_of_busy {i : Instr} {s : State} (start : State → State) (hb : s.st ≠ .idle) :
    issue i start s = dropWrite s := by
  simp [issue, hb]

/-- The fates of a command word: dropped, rejected with PARAM, or accepted (R92, R94). -/
theorem issue_cases (i : Instr) (start : State → State) (s : State) :
    (s.st ≠ .idle ∧ issue i start s = dropWrite s) ∨
    (s.st = .idle ∧ paramOk i s = false ∧ issue i start s = reject .param (encode i) s) ∨
    (s.st = .idle ∧ paramOk i s = true ∧ issue i start s = start (accepted (encode i) s)) := by
  by_cases hi : s.st = .idle
  · cases hp : paramOk i s
    · exact .inr (.inl ⟨hi, rfl, issue_of_bad start hi hp⟩)
    · exact .inr (.inr ⟨hi, rfl, issue_of_ok start hi hp⟩)
  · exact .inl ⟨hi, issue_of_busy start hi⟩

/-- A command word's fate does not depend on the environment, if what the command starts does not. -/
theorem issue_env {i : Instr} {start : State → State} (e : Env) (s : State)
    (h : ∀ u : State, start { u with env := e } = { start u with env := e }) :
    issue i start { s with env := e } = { issue i start s with env := e } := by
  have hp : paramOk i { s with env := e } = paramOk i s := by cases i <;> rfl
  by_cases hi : s.st = .idle
  · cases hk : paramOk i s
    · rw [issue_of_bad (s := { s with env := e }) start hi (hp.trans hk),
        issue_of_bad (s := s) start hi hk]
      rfl
    · rw [issue_of_ok (s := { s with env := e }) start hi (hp.trans hk),
        issue_of_ok (s := s) start hi hk]
      exact h (accepted (encode i) s)
  · rw [issue_of_busy (s := { s with env := e }) start hi, issue_of_busy (s := s) start hi]
    rfl

theorem illegalWrite_of_idle {w : Word} {s : State} (hi : s.st = .idle) :
    illegalWrite w s = reject .illegal w s := by
  simp [illegalWrite, hi]

theorem illegalWrite_of_busy {w : Word} {s : State} (hb : s.st ≠ .idle) :
    illegalWrite w s = dropWrite s := by
  simp [illegalWrite, hb]

/-- The commands that sample, and so need TIMEOUT_MS ≠ 0 (R76). -/
def samples : Instr → Bool
  | .nop => false
  | .readRaw => true
  | .average _ => true
  | .sampleDc _ => true
  | .sampleAc _ => true
  | .setphOff => false
  | .setphPos => false
  | .setphNeg => false

/-- `param_ok` is a legal COUNT and, for the commands that sample, TIMEOUT_MS ≠ 0 (R73, R76). -/
theorem paramOk_eq (i : Instr) (s : State) :
    paramOk i s = (i.wf && (!samples i || decide (s.timeoutMs ≠ 0#16))) := by
  cases i <;> simp [paramOk, Instr.wf, samples]

end Sys2Proof.Machine
end

