-- ==== Sys2Proof/Laws/Sequencer.lean ====
section
/-! SUPPORT. What the sequencer's step can do: it neither reads nor writes `drop` and the environment
(spec/40_command.md R90), and it keeps OP and the configuration (R29, R96). -/

namespace Sys2Proof.Machine

/-- `s` with another `drop` and another environment. -/
def setOuter (b : Bool) (e : Env) (s : State) : State := { s with drop := b, env := e }

@[simp] theorem setOuter_st (b : Bool) (e : Env) (s : State) : (setOuter b e s).st = s.st := rfl

@[simp] theorem setOuter_stage (b : Bool) (e : Env) (s : State) :
    (setOuter b e s).stage = s.stage := rfl

@[simp] theorem setOuter_env (b : Bool) (e : Env) (s : State) : (setOuter b e s).env = e := rfl

@[simp] theorem setOuter_drop (b : Bool) (e : Env) (s : State) : (setOuter b e s).drop = b := rfl

@[simp] theorem setOuter_self (s : State) : setOuter s.drop s.env s = s := rfl

@[simp] theorem setOuter_setOuter (b b' : Bool) (e e' : Env) (s : State) :
    setOuter b e (setOuter b' e' s) = setOuter b e s := rfl

theorem seqStep_of_idle {prm : Params} {d t : Bool} {s : State} (h : s.st = .idle) :
    seqStep prm d t s = .next s := by simp [seqStep, h]

theorem seqStep_of_delay {prm : Params} {d t : Bool} {s : State} (h : s.st = .delay) :
    seqStep prm d t s = delayStep t s := by simp [seqStep, h]

theorem seqStep_of_rw {prm : Params} {d t : Bool} {s : State} (h : s.st = .rw) :
    seqStep prm d t s = .next (rwStep prm d t s) := by simp [seqStep, h]

theorem seqStep_of_hi {prm : Params} {d t : Bool} {s : State} (h : s.st = .hi) :
    seqStep prm d t s = .next (hiStep prm d s) := by simp [seqStep, h]

theorem seqStep_of_lo {prm : Params} {d t : Bool} {s : State} (h : s.st = .lo) :
    seqStep prm d t s = loStep prm s := by simp [seqStep, h]

theorem rwStep_outer (prm : Params) (d t b : Bool) (e : Env) (s : State) :
    rwStep prm d t (setOuter b e s) = setOuter b e (rwStep prm d t s) := by
  cases d <;> cases t <;> by_cases h : s.tmo = 1#16 <;> simp [rwStep, setOuter, h, completeErr]

theorem hiStep_outer (prm : Params) (d b : Bool) (e : Env) (s : State) :
    hiStep prm d (setOuter b e s) = setOuter b e (hiStep prm d s) := by
  by_cases h : 1 < s.c
  · simp [hiStep, setOuter, h]
  · by_cases hp : s.p.toNat ≤ 23 <;> simp [hiStep, setOuter, h, hp]

theorem burstDone_outer (m : Word) (b : Bool) (e : Env) (s : State) :
    burstDone m (setOuter b e s) = andThen (burstDone m s) fun u => .next (setOuter b e u) := by
  cases h : s.stage <;> simp [burstDone, h] <;> rfl

theorem transactionDone_outer (x : Sample) (b : Bool) (e : Env) (s : State) :
    transactionDone x (setOuter b e s) =
      andThen (transactionDone x s) fun u => .next (setOuter b e u) := by
  by_cases hk : s.k.toNat + 1 < s.n.toNat
  · simp [transactionDone, burstContinue, setOuter, hk]
    rfl
  · by_cases hn : s.n = 0#8
    · simp [transactionDone, burstContinue, setOuter, hn]
    · have := burstDone_outer (floorMean (s.acc + zext32 x) s.n) b e
        { s with raw := zext32 x, acc := s.acc + zext32 x }
      simpa [transactionDone, burstContinue, setOuter, hk, hn] using this

theorem loStep_outer (prm : Params) (b : Bool) (e : Env) (s : State) :
    loStep prm (setOuter b e s) = andThen (loStep prm s) fun u => .next (setOuter b e u) := by
  by_cases hc : 1 < s.c
  · simp [loStep, setOuter, hc]
  · by_cases hp : s.p.toNat < 24
    · simp [loStep, setOuter, hc, hp]
    · have := transactionDone_outer (fixup s.sh) b e s
      simpa [loStep, setOuter, hc, hp] using this

theorem delayStep_outer (t b : Bool) (e : Env) (s : State) :
    delayStep t (setOuter b e s) = andThen (delayStep t s) fun u => .next (setOuter b e u) := by
  by_cases hd : s.dly = 0#16
  · cases h : s.stage <;> simp [delayStep, delayDone, setOuter, h, hd] <;> rfl
  · cases t <;> simp [delayStep, setOuter, hd]

/-- The sequencer neither reads nor writes `drop` and the environment (R90). -/
theorem seqStep_outer (prm : Params) (d t b : Bool) (e : Env) (s : State) :
    seqStep prm d t (setOuter b e s) =
      andThen (seqStep prm d t s) fun u => .next (setOuter b e u) := by
  cases h : s.st
  · simp [seqStep, h]
  · simpa [seqStep, h] using delayStep_outer t b e s
  · simp [seqStep, h, rwStep_outer]
  · simp [seqStep, h, hiStep_outer]
  · simpa [seqStep, h] using loStep_outer prm b e s

/-- What every step of the sequencer keeps: `drop`, the environment, OP and the configuration. -/
structure SameSettings (s u : State) : Prop where
  drop : u.drop = s.drop
  env : u.env = s.env
  op : u.op = s.op
  timeoutMs : u.timeoutMs = s.timeoutMs
  warmupMs : u.warmupMs = s.warmupMs
  settleMs : u.settleMs = s.settleMs

theorem sameSettings_refl (s : State) : SameSettings s s := ⟨rfl, rfl, rfl, rfl, rfl, rfl⟩

theorem transactionDone_settings {x : Sample} {s u : State} (h : transactionDone x s = .next u) :
    SameSettings s u := by
  simp only [transactionDone, burstContinue] at h
  split_ifs at h
  · cases h
    exact ⟨rfl, rfl, rfl, rfl, rfl, rfl⟩
  · cases hg : s.stage <;> simp only [burstDone, hg] at h <;> cases h <;>
      exact ⟨rfl, rfl, rfl, rfl, rfl, rfl⟩

/-- The sequencer keeps OP, DROP, the configuration and the environment (R26, R29, R96). -/
theorem seqStep_settings {prm : Params} {d t : Bool} {s u : State}
    (h : seqStep prm d t s = .next u) : SameSettings s u := by
  cases hs : s.st
  · rw [seqStep_of_idle hs] at h
    cases h
    exact sameSettings_refl s
  · rw [seqStep_of_delay hs] at h
    simp only [delayStep] at h
    split_ifs at h
    · cases hg : s.stage <;> simp only [delayDone, hg] at h <;> cases h <;>
        exact ⟨rfl, rfl, rfl, rfl, rfl, rfl⟩
    · cases h
      exact ⟨rfl, rfl, rfl, rfl, rfl, rfl⟩
    · cases h
      exact sameSettings_refl s
  · rw [seqStep_of_rw hs] at h
    cases h
    simp only [rwStep]
    split_ifs <;> exact ⟨rfl, rfl, rfl, rfl, rfl, rfl⟩
  · rw [seqStep_of_hi hs] at h
    cases h
    simp only [hiStep]
    split_ifs <;> exact ⟨rfl, rfl, rfl, rfl, rfl, rfl⟩
  · rw [seqStep_of_lo hs] at h
    simp only [loStep] at h
    split_ifs at h
    · cases h
      exact ⟨rfl, rfl, rfl, rfl, rfl, rfl⟩
    · cases h
      exact ⟨rfl, rfl, rfl, rfl, rfl, rfl⟩
    · exact transactionDone_settings h

end Sys2Proof.Machine
end

