-- ==== Sys2Proof/Laws/Cycle.lean ====
section
/-! SUPPORT. What one cycle can do: the inversion of a cycle that answers a next state, and the cycle of a
running command under a host that neither resets it nor drives an access without a step
(spec/40_command.md R90, R94, R96, R99). -/

namespace Sys2Proof.Machine

/-- What a cycle that answers a next state did (R90, R210). -/
theorem cycle_eq_next {prm : Params} {s t : State} (h : cycle prm s = .next t) :
    ∃ a, resolve prm (hostPins s).access = .ok a ∧
      (((hostPins s).rst = true ∧ t = resetCycle a s) ∨
       ((hostPins s).rst = false ∧ ∃ v u, hostPart a s = .next v ∧
          (if s.st = .idle then Host.Outcome.next v
            else seqStep prm (doutNow prm s) (tickNow prm s) v) = .next u ∧
          t = endCycle (portRead prm s a) (isRead a) u)) := by
  simp only [cycle] at h
  cases hr : resolve prm (hostPins s).access with
  | error r => simp [hr] at h
  | ok a =>
    refine ⟨a, rfl, ?_⟩
    cases hrst : (hostPins s).rst
    · simp only [hr, hrst, Bool.false_eq_true, if_false, runCycle] at h
      obtain ⟨v, hv, h⟩ := andThen_eq_next.mp h
      obtain ⟨u, hu, h⟩ := andThen_eq_next.mp h
      cases h
      exact .inr ⟨rfl, v, u, hv, hu, rfl⟩
    · simp only [hr, hrst, if_true] at h
      cases h
      exact .inl ⟨rfl, rfl⟩

/-- A cycle without reset whose access is admitted runs (R90). -/
theorem cycle_of_resolve {prm : Params} {s : State} {a : PortOp}
    (hr : resolve prm (hostPins s).access = .ok a) (hn : (hostPins s).rst = false) :
    cycle prm s = runCycle prm a s := by
  simp [cycle, hr, hn]

/-- A cycle with reset whose access is admitted resets (R210). -/
theorem cycle_of_reset {prm : Params} {s : State} {a : PortOp}
    (hr : resolve prm (hostPins s).access = .ok a) (hn : (hostPins s).rst = true) :
    cycle prm s = .next (resetCycle a s) := by
  simp [cycle, hr, hn]

@[simp] theorem hostPins_hostDoes (q : HostPins) (s : State) : hostPins (hostDoes q s) = q := rfl

@[simp] theorem doutNow_hostDoes (prm : Params) (q : HostPins) (s : State) :
    doutNow prm (hostDoes q s) = doutNow prm s := rfl

@[simp] theorem tickNow_hostDoes (prm : Params) (q : HostPins) (s : State) :
    tickNow prm (hostDoes q s) = tickNow prm s := rfl

@[simp] theorem resolve_idlePins (prm : Params) : resolve prm idlePins.access = .ok .none := rfl

@[simp] theorem resolve_readPins (prm : Params) (i : BitVec 4) :
    resolve prm (readPins i).access = .ok (.read i) := rfl

@[simp] theorem resolve_writePins (prm : Params) (i : BitVec 4) (w : Word) :
    resolve prm (writePins i w).access = .ok (.write i w) := rfl

@[simp] theorem idlePins_rst : idlePins.rst = false := rfl

@[simp] theorem readPins_rst (i : BitVec 4) : (readPins i).rst = false := rfl

@[simp] theorem writePins_rst (i : BitVec 4) (w : Word) : (writePins i w).rst = false := rfl

/-- A word written to CMD while a command runs is dropped, whatever the word (R94). -/
theorem cmdWrite_of_busy {w : Word} {s : State} (hb : s.st ≠ .idle) :
    cmdWrite w s = .next (dropWrite s) := by
  simp only [cmdWrite]
  cases decode w with
  | illegal why => exact congrArg _ (illegalWrite_of_busy hb)
  | cmd i =>
    cases i <;> simp only [exec, execNop, execReadRaw, execAverage, execSampleDc, execSampleAc,
      execSetphOff, execSetphPos, execSetphNeg, issue_of_busy _ hb]

/-- While a command runs, the host's part of a cycle sets DROP or changes nothing (R91, R94, R96, R97). -/
theorem hostPart_of_busy {a : PortOp} {s : State} (hb : s.st ≠ .idle) :
    ∃ b, hostPart a s = .next (setOuter b s.env s) ∧ (s.drop = true → b = true) := by
  have keep : ∃ b, Host.Outcome.next (φ := Fault) (ρ := Refusal) s = .next (setOuter b s.env s) ∧
      (s.drop = true → b = true) := ⟨s.drop, rfl, id⟩
  have dropped : ∃ b, Host.Outcome.next (φ := Fault) (ρ := Refusal) (dropWrite s) =
      .next (setOuter b s.env s) ∧ (s.drop = true → b = true) := ⟨true, rfl, fun _ => rfl⟩
  cases a with
  | none => exact keep
  | read i => exact keep
  | write i w =>
    by_cases hi : i = idxCmd
    · simpa [hostPart, hostWrite, hi, cmdWrite_of_busy hb] using dropped
    · cases hg : isConfig i
      · simpa [hostPart, hostWrite, hi, regWrite, hg] using keep
      · simpa [hostPart, hostWrite, hi, regWrite, hg, hb] using dropped

/-- The host's part of a cycle neither reads nor writes the environment (R90, R91). -/
theorem hostPart_env (a : PortOp) (e : Env) (s : State) :
    hostPart a { s with env := e } =
      andThen (hostPart a s) fun u => .next { u with env := e } := by
  cases a with
  | none => rfl
  | read i => rfl
  | write i w =>
    by_cases hi : i = idxCmd
    · simp only [hostPart, hostWrite, hi, if_true, cmdWrite]
      cases decode w with
      | illegal why =>
        simp only [illegalWrite]
        split_ifs <;> rfl
      | cmd j =>
        cases j <;> exact congrArg Host.Outcome.next (issue_env e s fun _ => rfl)
    · simp only [hostPart, hostWrite, hi, if_false, regWrite, cfgWrite]
      split_ifs <;> rfl

/-- A calm host's coming cycle is no reset, and its access is admitted. -/
theorem calm_now {prm : Params} {s : State} (hc : Calm prm s) :
    (hostPins s).rst = false ∧ ∃ a, resolve prm (hostPins s).access = .ok a := by
  cases hh : s.env.host with
  | nil => exact ⟨by simp [hostPins, hh], .none, by simp [hostPins, hh]⟩
  | cons x rest =>
    have hx := hc x (by simp [hh])
    cases x with
    | waitIdle => exact ⟨by simp [hostPins, hh], .read idxStatus, by simp [hostPins, hh]⟩
    | pins q =>
      simp only [calmItem, Bool.and_eq_true, Bool.not_eq_true'] at hx
      refine ⟨by simpa [hostPins, hh] using hx.1, ?_⟩
      cases ha : resolve prm q.access with
      | error r => simp [ha, Except.toBool] at hx
      | ok a => exact ⟨a, by simp [hostPins, hh, ha]⟩

/-- What is left of a calm host's list is calm. -/
theorem calm_rest {prm : Params} {s : State} (hc : Calm prm s) (r : Word) :
    ∀ x ∈ hostRest r s, calmItem prm x = true := by
  intro x hx
  apply hc x
  cases hh : s.env.host with
  | nil => simp [hostRest, hh] at hx
  | cons y rest =>
    cases y with
    | pins q => simpa [hostRest, hh] using .inr (by simpa [hostRest, hh] using hx)
    | waitIdle =>
      simp only [hostRest, hh] at hx
      split at hx
      · exact hx
      · exact List.mem_cons_of_mem _ hx

/-- The cycle of a running command under a calm host is the sequencer's step: the host changes nothing of
it but DROP (R94, R96, R99). -/
theorem cycle_of_calm {prm : Params} {s : State} (hc : Calm prm s) (hb : s.st ≠ .idle) :
    ∃ b e, cycle prm s = andThen (seqStep prm (doutNow prm s) (tickNow prm s) s)
        (fun u => .next (setOuter b e u)) ∧
      (∀ x ∈ e.host, calmItem prm x = true) ∧
      e.dout = s.env.dout.tail ∧ e.tick = s.env.tick.tail ∧ e.cycle = s.env.cycle + 1 ∧
      (s.drop = true → b = true) := by
  obtain ⟨hn, a, ha⟩ := calm_now hc
  obtain ⟨b, hp, hd⟩ := hostPart_of_busy (a := a) hb
  refine ⟨b, envNext (portRead prm s a) (isRead a) s, ?_, calm_rest hc _, rfl, rfl, rfl, hd⟩
  rw [cycle_of_resolve ha hn, runCycle, hp, andThen_next, if_neg hb, seqStep_outer, andThen_assoc]
  cases hq : seqStep prm (doutNow prm s) (tickNow prm s) s with
  | next u =>
    simp only [andThen_next, endCycle]
    rfl
  | fault r => rfl
  | refused r => rfl

end Sys2Proof.Machine
end

