-- ==== Sys2Proof/Laws/Run.lean ====
section
/-! SUPPORT. Runs of a running command: many cycles under a calm host are the sequencer's steps on the
listed levels of `dout` and `tick_ms` (spec/40_command.md R90, R99; spec/41_transport.md R126), and the
stretches such a run is made of. -/

namespace Sys2Proof.Machine

theorem cycles_add (prm : Params) (j k : Nat) (s : State) :
    cycles prm (j + k) s = andThen (cycles prm j s) (cycles prm k) := by
  induction j generalizing s with
  | zero => simp [cycles]
  | succ j ih =>
    rw [Nat.succ_add]
    simp only [cycles, andThen_assoc]
    congr 1
    funext t
    exact ih t

theorem levels_add {f : State → Bool} {prm : Params} {j k : Nat} {s t : State}
    (h : cycles prm j s = .next t) :
    levels f prm (j + k) s = levels f prm j s ++ levels f prm k t := by
  induction j generalizing s with
  | zero =>
    cases h
    simp [levels]
  | succ j ih =>
    obtain ⟨u, hu, hj⟩ := andThen_eq_next.mp h
    rw [Nat.succ_add]
    simp [levels, hu, ih hj]

/-- The sequencer alone on the inputs of some cycles, each a level of `dout` and one of `tick_ms`, as long as
a command runs. -/
def seqRun (prm : Params) : List (Bool × Bool) → State → Option State
  | [], s => some s
  | x :: xs, s =>
    if s.st = .idle then none
    else match seqStep prm x.1 x.2 s with
      | .next u => seqRun prm xs u
      | .fault _ => none
      | .refused _ => none

/-- The levels of `f` along `seqRun`. -/
def seqLevels (f : State → Bool) (prm : Params) : List (Bool × Bool) → State → List Bool
  | [], _ => []
  | x :: xs, s =>
    f s :: match seqStep prm x.1 x.2 s with
      | .next u => seqLevels f prm xs u
      | .fault _ => []
      | .refused _ => []

theorem seqRun_cons {prm : Params} {x : Bool × Bool} {xs : List (Bool × Bool)} {s u : State}
    (hb : s.st ≠ .idle) (h : seqStep prm x.1 x.2 s = .next u) :
    seqRun prm (x :: xs) s = seqRun prm xs u := by
  simp [seqRun, hb, h]

theorem seqLevels_cons {f : State → Bool} {prm : Params} {x : Bool × Bool}
    {xs : List (Bool × Bool)} {s u : State} (h : seqStep prm x.1 x.2 s = .next u) :
    seqLevels f prm (x :: xs) s = f s :: seqLevels f prm xs u := by
  simp [seqLevels, h]

/-- The first step of a run that goes on. -/
theorem seqRun_cons_eq_some {prm : Params} {x : Bool × Bool} {xs : List (Bool × Bool)} {s u : State}
    (h : seqRun prm (x :: xs) s = some u) :
    s.st ≠ .idle ∧ ∃ v, seqStep prm x.1 x.2 s = .next v ∧ seqRun prm xs v = some u := by
  by_cases hi : s.st = .idle
  · simp [seqRun, hi] at h
  · cases hq : seqStep prm x.1 x.2 s with
    | next v => exact ⟨hi, v, rfl, by simpa [seqRun, hi, hq] using h⟩
    | fault r => simp [seqRun, hi, hq] at h
    | refused r => simp [seqRun, hi, hq] at h

theorem seqRun_append {prm : Params} {xs ys : List (Bool × Bool)} {s u : State}
    (h : seqRun prm xs s = some u) : seqRun prm (xs ++ ys) s = seqRun prm ys u := by
  induction xs generalizing s with
  | nil =>
    cases h
    rfl
  | cons x xs ih =>
    obtain ⟨hb, v, hv, hr⟩ := seqRun_cons_eq_some h
    rw [List.cons_append, seqRun_cons hb hv, ih hr]

theorem seqLevels_append {f : State → Bool} {prm : Params} {xs ys : List (Bool × Bool)} {s u : State}
    (h : seqRun prm xs s = some u) :
    seqLevels f prm (xs ++ ys) s = seqLevels f prm xs s ++ seqLevels f prm ys u := by
  induction xs generalizing s with
  | nil =>
    cases h
    rfl
  | cons x xs ih =>
    obtain ⟨hb, v, hv, hr⟩ := seqRun_cons_eq_some h
    simp [seqLevels_cons hv, ih hr]

/-- The sequencer's run does not depend on `drop` and the environment (R90). -/
theorem seqRun_outer {prm : Params} {xs : List (Bool × Bool)} {s u : State} (b : Bool) (e : Env)
    (h : seqRun prm xs s = some u) : seqRun prm xs (setOuter b e s) = some (setOuter b e u) := by
  induction xs generalizing s with
  | nil =>
    cases h
    rfl
  | cons x xs ih =>
    obtain ⟨hb, v, hv, hr⟩ := seqRun_cons_eq_some h
    have hq : seqStep prm x.1 x.2 (setOuter b e s) = .next (setOuter b e v) := by
      rw [seqStep_outer, hv, andThen_next]
    rw [seqRun_cons (by simpa using hb) hq, ih hr]

theorem seqLevels_outer {f : State → Bool} {prm : Params} {xs : List (Bool × Bool)} {s u : State}
    (hf : ∀ b e s, f (setOuter b e s) = f s) (b : Bool) (e : Env)
    (h : seqRun prm xs s = some u) :
    seqLevels f prm xs (setOuter b e s) = seqLevels f prm xs s := by
  induction xs generalizing s with
  | nil => rfl
  | cons x xs ih =>
    obtain ⟨hb, v, hv, hr⟩ := seqRun_cons_eq_some h
    have hq : seqStep prm x.1 x.2 (setOuter b e s) = .next (setOuter b e v) := by
      rw [seqStep_outer, hv, andThen_next]
    rw [seqLevels_cons hq, seqLevels_cons hv, hf, ih hr]

/-- The levels of `dout` and `tick_ms` in the `j`-th coming cycle: listed, or free. -/
def inputAt (prm : Params) (s : State) (j : Nat) : Bool × Bool := (doutAt prm s j, tickAt prm s j)

theorem inputAt_zero (prm : Params) (s : State) : inputAt prm s 0 = (doutNow prm s, tickNow prm s) := by
  cases hd : s.env.dout <;> cases ht : s.env.tick <;>
    simp [inputAt, doutAt, tickAt, doutNow, tickNow, hd, ht]

/-- Ticks that never cease go on without ceasing after a cycle (R202). -/
theorem fairTimebase_shift {prm : Params} {s t : State}
    (h : ∀ j, inputAt prm t j = inputAt prm s (j + 1)) (hf : FairTimebase prm s) :
    FairTimebase prm t := by
  intro m
  obtain ⟨j, hj, ht⟩ := hf (m + 1)
  obtain ⟨i, rfl⟩ : ∃ i, j = i + 1 := ⟨j - 1, by omega⟩
  exact ⟨i, by omega, (congrArg Prod.snd (h i)).trans ht⟩

/-- One calm cycle of a running command. -/
theorem cycle_of_inputs {prm : Params} {s u : State} (hc : Calm prm s) (hb : s.st ≠ .idle)
    (hq : seqStep prm (inputAt prm s 0).1 (inputAt prm s 0).2 s = .next u) :
    ∃ b e, cycle prm s = .next (setOuter b e u) ∧ Calm prm (setOuter b e u) ∧
      (∀ j, inputAt prm (setOuter b e u) j = inputAt prm s (j + 1)) ∧
      e.dout = s.env.dout.tail ∧ e.tick = s.env.tick.tail ∧ (s.drop = true → b = true) := by
  obtain ⟨b, e, hcy, hcalm, hed, het, hec, hdrop⟩ := cycle_of_calm hc hb
  rw [inputAt_zero] at hq
  rw [hq, andThen_next] at hcy
  refine ⟨b, e, hcy, hcalm, fun j => ?_, hed, het, hdrop⟩
  simp [inputAt, doutAt, tickAt, hed, het, hec, Nat.add_assoc, Nat.add_comm 1 j]

/-- A state in `R` from whose next state `Q` is reached through `R` reaches `Q` through `R`. -/
theorem cycles_until_cons {prm : Params} {R Q : State → Prop} {s v : State} (hs : R s)
    (hcy : cycle prm s = .next v)
    (h : ∃ k t, cycles prm k v = .next t ∧ Q t ∧ ∀ j < k, ∀ u, cycles prm j v = .next u → R u) :
    ∃ k t, cycles prm k s = .next t ∧ Q t ∧ ∀ j < k, ∀ u, cycles prm j s = .next u → R u := by
  obtain ⟨k, t, hk, hq, hall⟩ := h
  refine ⟨k + 1, t, by simp [cycles, hcy, hk], hq, fun j hj u hu => ?_⟩
  cases j with
  | zero =>
    cases hu
    exact hs
  | succ j => exact hall j (by omega) u (by simpa [cycles, hcy] using hu)

/-- Liveness with a fair timebase (R202): where every step of the sequencer from a state in `R` reaches `Q`,
or stays in `R` and lowers the measure, or, without a tick, changes nothing, a run from `R` under a calm host
reaches `Q`, through states in `R` only. -/
theorem cycles_until {α : Type} {r : α → α → Prop} (hr : WellFounded r) {prm : Params}
    {R Q : State → Prop} {μ : State → α}
    (hR : ∀ b e u, R u → R (setOuter b e u)) (hQ : ∀ b e u, Q u → Q (setOuter b e u))
    (hμ : ∀ b e u, μ (setOuter b e u) = μ u) (hb : ∀ u, R u → u.st ≠ .idle)
    (hstep : ∀ u d t, R u → ∃ v, seqStep prm d t u = .next v ∧
      (Q v ∨ (R v ∧ r (μ v) (μ u)) ∨ (t = false ∧ v = u)))
    {s : State} (hs : R s) (hc : Calm prm s) (hf : FairTimebase prm s) :
    ∃ k t, cycles prm k s = .next t ∧ Q t ∧
      ∀ j < k, ∀ u, cycles prm j s = .next u → R u := by
  generalize hm : μ s = m
  induction m using hr.induction generalizing s with
  | _ m ih =>
    obtain ⟨j, -, ht⟩ := hf 0
    induction j generalizing s with
    | zero =>
      obtain ⟨v, hv, h⟩ := hstep s (inputAt prm s 0).1 (inputAt prm s 0).2 hs
      obtain ⟨b, e, hcy, hcalm, hin, -⟩ := cycle_of_inputs hc (hb s hs) hv
      rcases h with h | ⟨h, hlt⟩ | ⟨h, -⟩
      · exact cycles_until_cons hs hcy ⟨0, _, rfl, hQ b e v h, by simp⟩
      · exact cycles_until_cons hs hcy
          (ih _ (hm ▸ hlt) (hR b e v h) hcalm (fairTimebase_shift hin hf) (hμ b e v))
      · exact absurd (ht.symm.trans h) (by simp)
    | succ i ihi =>
      obtain ⟨v, hv, h⟩ := hstep s (inputAt prm s 0).1 (inputAt prm s 0).2 hs
      obtain ⟨b, e, hcy, hcalm, hin, -⟩ := cycle_of_inputs hc (hb s hs) hv
      rcases h with h | ⟨h, hlt⟩ | ⟨-, rfl⟩
      · exact cycles_until_cons hs hcy ⟨0, _, rfl, hQ b e v h, by simp⟩
      · exact cycles_until_cons hs hcy
          (ih _ (hm ▸ hlt) (hR b e v h) hcalm (fairTimebase_shift hin hf) (hμ b e v))
      · exact cycles_until_cons hs hcy
          (ihi (hR b e v hs) hcalm (fairTimebase_shift hin hf) ((hμ b e v).trans hm)
            ((congrArg Prod.snd (hin i)).trans ht))

/-- Cycles of a running command under a calm host are the sequencer's run on the coming levels. -/
theorem cycles_of_inputs {prm : Params} {xs : List (Bool × Bool)} {s u : State}
    (hc : Calm prm s) (hx : ∀ j, j < xs.length → xs[j]? = some (inputAt prm s j))
    (hr : seqRun prm xs s = some u) :
    ∃ b e, cycles prm xs.length s = .next (setOuter b e u) ∧ Calm prm (setOuter b e u) ∧
      e.dout = s.env.dout.drop xs.length ∧ e.tick = s.env.tick.drop xs.length ∧
      (s.drop = true → b = true) := by
  induction xs generalizing s u with
  | nil =>
    obtain rfl : s = u := by simpa [seqRun] using hr
    exact ⟨s.drop, s.env, rfl, hc, rfl, rfl, id⟩
  | cons x xs ih =>
    obtain ⟨hb, v, hv, hrest⟩ := seqRun_cons_eq_some hr
    obtain rfl : x = inputAt prm s 0 := by simpa using hx 0 (by simp)
    obtain ⟨b, e, hcy, hcalm, hin, hed, het, hdrop⟩ := cycle_of_inputs hc hb hv
    obtain ⟨b', e', hcy', hcalm', hed', het', hdrop'⟩ := ih hcalm
      (fun j hj => by rw [hin]; simpa using hx (j + 1) (by simpa using hj))
      (seqRun_outer b e hrest)
    refine ⟨b', e', ?_, hcalm', ?_, ?_, fun hs => hdrop' (hdrop hs)⟩
    · simpa [cycles, hcy] using hcy'
    · simp [hed', hed]
    · simp [het', het]

/-- The levels of such a run. -/
theorem levels_of_inputs {f : State → Bool} {prm : Params} {xs : List (Bool × Bool)} {s u : State}
    (hf : ∀ b e s, f (setOuter b e s) = f s) (hc : Calm prm s)
    (hx : ∀ j, j < xs.length → xs[j]? = some (inputAt prm s j))
    (hr : seqRun prm xs s = some u) : levels f prm xs.length s = seqLevels f prm xs s := by
  induction xs generalizing s u with
  | nil => rfl
  | cons x xs ih =>
    obtain ⟨hb, v, hv, hrest⟩ := seqRun_cons_eq_some hr
    obtain rfl : x = inputAt prm s 0 := by simpa using hx 0 (by simp)
    obtain ⟨b, e, hcy, hcalm, hin, -⟩ := cycle_of_inputs hc hb hv
    rw [seqLevels_cons hv, List.length_cons, levels, hcy]
    simp only
    rw [ih hcalm (fun j hj => by rw [hin]; simpa using hx (j + 1) (by simpa using hj))
      (seqRun_outer b e hrest), seqLevels_outer hf b e hrest]

/-- Listed levels are the coming levels. -/
theorem inputAt_of_listed {prm : Params} {xs : List (Bool × Bool)} {s : State} {ds ts : List Bool}
    (hd : s.env.dout = xs.map Prod.fst ++ ds) (ht : s.env.tick = xs.map Prod.snd ++ ts)
    (j : Nat) (hj : j < xs.length) : xs[j]? = some (inputAt prm s j) := by
  simp [inputAt, doutAt, tickAt, hd, ht, List.getElem?_append_left, hj]

/-- Cycles of a running command under a calm host are the sequencer's run on the listed levels. -/
theorem cycles_of_seqRun {prm : Params} {xs : List (Bool × Bool)} {s u : State} {ds ts : List Bool}
    (hc : Calm prm s) (hd : s.env.dout = xs.map Prod.fst ++ ds)
    (ht : s.env.tick = xs.map Prod.snd ++ ts) (hr : seqRun prm xs s = some u) :
    ∃ b e, cycles prm xs.length s = .next (setOuter b e u) ∧ Calm prm (setOuter b e u) ∧
      e.dout = ds ∧ e.tick = ts ∧ (s.drop = true → b = true) := by
  obtain ⟨b, e, hcy, hcalm, hed, het, hdrop⟩ :=
    cycles_of_inputs hc (inputAt_of_listed hd ht) hr
  exact ⟨b, e, hcy, hcalm, by simp [hed, hd], by simp [het, ht], hdrop⟩

/-- The levels of such a run. -/
theorem levels_of_seqRun {f : State → Bool} {prm : Params} {xs : List (Bool × Bool)} {s u : State}
    {ds ts : List Bool} (hf : ∀ b e s, f (setOuter b e s) = f s) (hc : Calm prm s)
    (hd : s.env.dout = xs.map Prod.fst ++ ds) (ht : s.env.tick = xs.map Prod.snd ++ ts)
    (hr : seqRun prm xs s = some u) : levels f prm xs.length s = seqLevels f prm xs s :=
  levels_of_inputs hf hc (inputAt_of_listed hd ht) hr

/-- Along a run that goes on, a command runs in every cycle. -/
theorem seqLevels_busy {prm : Params} {xs : List (Bool × Bool)} {s u : State}
    (hr : seqRun prm xs s = some u) : seqLevels busy prm xs s = List.replicate xs.length true := by
  induction xs generalizing s with
  | nil => rfl
  | cons x xs ih =>
    obtain ⟨hb, v, hv, hrest⟩ := seqRun_cons_eq_some hr
    simp [seqLevels_cons hv, ih hrest, List.replicate_succ, busy, hb]

/-- The high phase: `c` cycles, and the level of `dout` in the last of them is sampled (R115). -/
theorem seqRun_high {prm : Params} (ys : List (Bool × Bool)) (x : Bool × Bool) {s : State}
    (hs : s.st = .hi) (hc : s.c = ys.length + 1) :
    seqRun prm (ys ++ [x]) s = some { s with
      sh := if s.p.toNat ≤ 23 then sampleBit s.sh s.p.toNat x.1 else s.sh,
      sck := false, st := .lo, c := prm.L } := by
  induction ys generalizing s with
  | nil =>
    have h1 : ¬ 1 < s.c := by simp [hc]
    rw [List.nil_append, seqRun_cons (by simp [hs]) (seqStep_of_hi hs)]
    simp [seqRun, hiStep, h1]
  | cons y ys ih =>
    have h1 : 1 < s.c := by simp [hc]
    rw [List.cons_append, seqRun_cons (by simp [hs]) (seqStep_of_hi hs)]
    simp only [hiStep, h1, if_true]
    rw [ih (by simpa using hs) (by simp [hc])]

/-- The low phase: `c` cycles, the last of which ends it (R116). -/
theorem seqRun_low {prm : Params} (ys : List (Bool × Bool)) (x : Bool × Bool) {s : State}
    (hs : s.st = .lo) (hc : s.c = ys.length + 1) :
    seqRun prm (ys ++ [x]) s = nextState (loStep prm { s with c := 1 }) := by
  induction ys generalizing s with
  | nil =>
    have h1 : s.c = 1 := by simp [hc]
    have hself : { s with c := 1 } = s := by
      rw [← h1]
    rw [hself]
    simp only [List.nil_append, seqRun, seqStep_of_lo hs, if_neg (show s.st ≠ .idle by simp [hs])]
    cases loStep prm s <;> rfl
  | cons y ys ih =>
    have h1 : 1 < s.c := by simp [hc]
    have hq : seqStep prm y.1 y.2 s = .next { s with c := s.c - 1 } := by
      rw [seqStep_of_lo hs]
      simp [loStep, h1]
    rw [List.cons_append, seqRun_cons (by simp [hs]) hq, ih (by simpa using hs) (by simp [hc])]

end Sys2Proof.Machine
end

