-- ==== Sys2Proof/Laws/Transaction.lean ====
section
/-! SUPPORT. One transaction as a run of the sequencer: the ready wait, 24 data pulses and the extra pulse
(spec/41_transport.md R112 to R124), and the `sck` level along it (R111, R117). -/

namespace Sys2Proof.Machine

/-- One bit is written, the others keep their value (R115). -/
theorem getLsbD_sampleBit (sh : Sample) {p i : Nat} (d : Bool) (hi : i < 24) :
    (sampleBit sh p d).getLsbD i = if i = 23 - p then d else sh.getLsbD i := by
  by_cases h : i = 23 - p
  · subst h
    cases d <;> simp [sampleBit, putBit, hi]
  · cases d <;> simp [sampleBit, putBit, h, hi]

theorem exists_concat_of_length {α : Type} {xs : List α} {k : Nat} (h : xs.length = k + 1) :
    ∃ ys y, xs = ys ++ [y] ∧ ys.length = k := by
  have hne : xs ≠ [] := by
    intro e
    simp [e] at h
  refine ⟨xs.dropLast, xs.getLast hne, (List.dropLast_append_getLast hne).symm, ?_⟩
  simp [h]

/-- A list cut after its first `H` of `H + L` entries, each part with its last entry apart. -/
theorem pulse_parts {prm : Params} {zs : List (Bool × Bool)} (h : zs.length = prm.H + prm.L) :
    ∃ ys x ys' x', zs = (ys ++ [x]) ++ (ys' ++ [x']) ∧ ys.length + 1 = prm.H ∧
      ys'.length + 1 = prm.L ∧ zs[prm.H - 1]? = some x := by
  have hH := prm.H_pos
  have hL := prm.L_pos
  obtain ⟨ys, x, h1, h1l⟩ := exists_concat_of_length (xs := zs.take prm.H) (k := prm.H - 1)
    (by simp [h]; omega)
  obtain ⟨ys', x', h2, h2l⟩ := exists_concat_of_length (xs := zs.drop prm.H) (k := prm.L - 1)
    (by simp [h]; omega)
  refine ⟨ys, x, ys', x', ?_, by omega, by omega, ?_⟩
  · rw [← h1, ← h2, List.take_append_drop]
  · have : zs[prm.H - 1]? = (zs.take prm.H)[prm.H - 1]? := by
      rw [List.getElem?_take]
      simp [show prm.H - 1 < prm.H by omega]
    rw [this, h1, List.getElem?_append_right (by omega)]
    simp [h1l]

/-- A data pulse: high phase, sample, low phase, next pulse (R115, R116). -/
theorem seqRun_pulse {prm : Params} {zs : List (Bool × Bool)} {x : Bool × Bool} {s : State}
    (hs : s.st = .hi) (hc : s.c = prm.H) (hp : s.p.toNat < 24)
    (hl : zs.length = prm.H + prm.L) (hx : zs[prm.H - 1]? = some x) :
    seqRun prm zs s = some { s with
      sh := sampleBit s.sh s.p.toNat x.1, sck := true, st := .hi, c := prm.H, p := s.p + 1#5 } := by
  obtain ⟨ys, y, ys', y', hz, h1, h2, h3⟩ := pulse_parts hl
  rw [h3] at hx
  obtain rfl : y = x := by simpa using hx
  rw [hz, seqRun_append (seqRun_high ys y hs (by omega)), seqRun_low ys' y' rfl (by simp [h2])]
  simp [loStep, hp, show s.p.toNat ≤ 23 by omega, nextState]

/-- `m` data pulses from pulse `p`: each takes the level of `dout` in its last high cycle (R115 to R118). -/
theorem seqRun_pulses {prm : Params} (w : Sample) (m : Nat) {zs : List (Bool × Bool)} {s : State}
    (hs : s.st = .hi) (hc : s.c = prm.H) (hk : s.sck = true) (hp : s.p.toNat + m ≤ 24)
    (hl : zs.length = m * (prm.H + prm.L))
    (hw : ∀ q < m, (zs[q * (prm.H + prm.L) + (prm.H - 1)]?).map Prod.fst =
      some (w.getLsbD (23 - (s.p.toNat + q)))) :
    ∃ sh, seqRun prm zs s = some { s with sh := sh, p := s.p + BitVec.ofNat 5 m } ∧
      ∀ i < 24, sh.getLsbD i =
        if 24 ≤ i + s.p.toNat + m ∧ i + s.p.toNat < 24 then w.getLsbD i else s.sh.getLsbD i := by
  induction m generalizing zs with
  | zero =>
    have hz : zs = [] := by simpa using hl
    subst hz
    refine ⟨s.sh, by simp [seqRun], ?_⟩
    intro i hi
    rw [if_neg (by omega)]
  | succ m ih =>
    have hH := prm.H_pos
    have hL := prm.L_pos
    have hlen : zs.length = m * (prm.H + prm.L) + (prm.H + prm.L) := by
      rw [hl, Nat.succ_mul]
    obtain ⟨sh, hrun, hbits⟩ := ih (zs := zs.take (m * (prm.H + prm.L))) (by omega)
      (by simp [hlen]) (by
        intro q hq
        rw [List.getElem?_take, if_pos, hw q (by omega)]
        have : (q + 1) * (prm.H + prm.L) ≤ m * (prm.H + prm.L) := Nat.mul_le_mul_right _ hq
        rw [Nat.succ_mul] at this
        omega)
    have hlast := hw m (by omega)
    obtain ⟨x, hx, hxw⟩ : ∃ x, zs[m * (prm.H + prm.L) + (prm.H - 1)]? = some x ∧
        x.1 = w.getLsbD (23 - (s.p.toNat + m)) := by
      cases hz : zs[m * (prm.H + prm.L) + (prm.H - 1)]? with
      | none => simp [hz] at hlast
      | some x => exact ⟨x, rfl, by simpa [hz] using hlast⟩
    have hpm : (s.p + BitVec.ofNat 5 m).toNat = s.p.toNat + m := by
      rw [BitVec.toNat_add, BitVec.toNat_ofNat]
      omega
    have hpulse := seqRun_pulse (prm := prm) (zs := zs.drop (m * (prm.H + prm.L))) (x := x)
      (s := { s with sh := sh, p := s.p + BitVec.ofNat 5 m }) hs hc (by simp only [hpm]; omega)
      (by simp [hlen]) (by rw [List.getElem?_drop]; exact hx)
    refine ⟨sampleBit sh (s.p.toNat + m) x.1, ?_, ?_⟩
    · have := seqRun_append (ys := zs.drop (m * (prm.H + prm.L))) hrun
      rw [List.take_append_drop, hpulse] at this
      rw [this]
      simp [hpm, hs, hc, hk, BitVec.ofNat_add, BitVec.add_assoc]
    · intro i hi
      rw [getLsbD_sampleBit _ _ hi, hbits i hi, hxw]
      by_cases h : i = 23 - (s.p.toNat + m)
      · rw [if_pos h, if_pos (by omega), h]
      · rw [if_neg h]
        by_cases h' : 24 ≤ i + s.p.toNat + m ∧ i + s.p.toNat < 24
        · rw [if_pos h', if_pos (by omega)]
        · rw [if_neg h', if_neg (by omega)]

/-- The ready wait while `dout` stays high and fewer than `tmo` ticks fall (R113). -/
theorem seqRun_wait {prm : Params} {xs : List (Bool × Bool)} {s : State} (hs : s.st = .rw)
    (hd : ∀ x ∈ xs, x.1 = true) (ht : (xs.map Prod.snd).count true < s.tmo.toNat) :
    seqRun prm xs s =
      some { s with tmo := s.tmo - BitVec.ofNat 16 ((xs.map Prod.snd).count true) } := by
  induction xs generalizing s with
  | nil => simp [seqRun]
  | cons x xs ih =>
    obtain ⟨d, t⟩ := x
    have hd1 : d = true := hd (d, t) (by simp)
    subst hd1
    have hrest := fun y hy => hd y (List.mem_cons_of_mem _ hy)
    rw [seqRun_cons (by simp [hs]) (seqStep_of_rw hs)]
    cases t
    · simp only [List.map_cons, List.count_cons] at ht ⊢
      simp only [rwStep]
      simpa using ih hs hrest (by simpa using ht)
    · simp only [List.map_cons, List.count_cons_self] at ht ⊢
      have h1 : s.tmo ≠ 1#16 := by
        intro e
        simp [e] at ht
      have hlt : s.tmo.toNat < 2 ^ 16 := s.tmo.isLt
      have hsub : (s.tmo - 1#16).toNat = s.tmo.toNat - 1 := by
        rw [BitVec.toNat_sub]
        simp
        omega
      simp only [rwStep, h1]
      simp only [Bool.true_eq_false, if_false, if_true]
      rw [ih (by simpa using hs) hrest (by simp only [hsub]; omega)]
      congr 2
      simp only
      rw [Nat.add_comm, BitVec.ofNat_add]
      exact sub_sub _ _ _

/-- The ready cycle and 25 pulses: the shift register holds the chip's word, and the transaction is done in
the last low cycle of pulse 24 (R113 to R119). -/
theorem seqRun_shift {prm : Params} (w : Sample) {r : Bool × Bool} {zs : List (Bool × Bool)} {s : State}
    (hs : s.st = .rw) (hr : r.1 = false) (hl : zs.length = 25 * (prm.H + prm.L))
    (hw : ∀ q < 24, (zs[q * (prm.H + prm.L) + (prm.H - 1)]?).map Prod.fst =
      some (w.getLsbD (23 - q))) :
    seqRun prm (r :: zs) s = nextState (transactionDone (fixup w)
      { s with st := .lo, sck := false, p := 24#5, c := 1, sh := w }) := by
  have hH := prm.H_pos
  have hq : seqStep prm r.1 r.2 s = .next { s with st := .hi, p := 0#5, c := prm.H, sck := true } := by
    rw [seqStep_of_rw hs, hr]
    rfl
  rw [seqRun_cons (by simp [hs]) hq]
  have hlen : zs.length = 24 * (prm.H + prm.L) + (prm.H + prm.L) := by omega
  obtain ⟨sh, hrun, hbits⟩ := seqRun_pulses (prm := prm) w 24
    (zs := zs.take (24 * (prm.H + prm.L)))
    (s := { s with st := .hi, p := 0#5, c := prm.H, sck := true }) rfl rfl rfl (by simp)
    (by simp [hlen]) (by
      intro q hq
      rw [List.getElem?_take, if_pos, hw q hq]
      · simp
      · have : (q + 1) * (prm.H + prm.L) ≤ 24 * (prm.H + prm.L) := Nat.mul_le_mul_right _ hq
        rw [Nat.succ_mul] at this
        omega)
  have hsh : sh = w := by
    apply BitVec.eq_of_getLsbD_eq
    intro i hi
    rw [hbits i hi, if_pos]
    simp
    omega
  subst hsh
  have hcut := seqRun_append (ys := zs.drop (24 * (prm.H + prm.L))) hrun
  rw [List.take_append_drop] at hcut
  obtain ⟨ys, x, ys', x', hz, h1, h2, -⟩ := pulse_parts (prm := prm)
    (zs := zs.drop (24 * (prm.H + prm.L))) (by simp [hlen])
  rw [hcut, hz, seqRun_append (seqRun_high ys x rfl (by simp; omega)),
    seqRun_low ys' x' rfl (by simp [h2])]
  simp [loStep]

/-- The inputs of a transaction's cycles. -/
def transferInputs (x : Transfer) : List (Bool × Bool) := x.dout.zip x.tick

theorem transferInputs_dout {prm : Params} {n : Nat} {x : Transfer} (h : TransferOk prm n x) :
    (transferInputs x).map Prod.fst = x.dout :=
  List.map_fst_zip (by rw [h.ticks_listed])

theorem transferInputs_tick {prm : Params} {n : Nat} {x : Transfer} (h : TransferOk prm n x) :
    (transferInputs x).map Prod.snd = x.tick :=
  List.map_snd_zip (by rw [h.ticks_listed])

theorem transferInputs_length {prm : Params} {n : Nat} {x : Transfer} (h : TransferOk prm n x) :
    (transferInputs x).length = transferCycles prm x.wait := by
  simp [transferInputs, h.ticks_listed, h.chip.length]

/-- A transaction's inputs: the wait, the ready cycle, the pulses. -/
theorem transferInputs_parts {prm : Params} {n : Nat} {x : Transfer} (h : TransferOk prm n x) :
    ∃ ws r zs, transferInputs x = ws ++ r :: zs ∧ (∀ y ∈ ws, y.1 = true) ∧
      ws.length = x.wait ∧ (ws.map Prod.snd).count true < n ∧ r.1 = false ∧
      zs.length = 25 * (prm.H + prm.L) ∧
      ∀ q < 24, (zs[q * (prm.H + prm.L) + (prm.H - 1)]?).map Prod.fst =
        some (x.word.getLsbD (23 - q)) := by
  have hlen := transferInputs_length h
  have hfst := transferInputs_dout h
  have hsnd := transferInputs_tick h
  have hget : ∀ i : Nat, ((transferInputs x)[i]?).map Prod.fst = x.dout[i]? := by
    intro i
    rw [← List.getElem?_map, hfst]
  have hw : x.wait < (transferInputs x).length := by
    rw [hlen, transferCycles]
    omega
  refine ⟨(transferInputs x).take x.wait, (transferInputs x)[x.wait],
    (transferInputs x).drop (x.wait + 1), ?_, ?_, ?_, ?_, ?_, ?_, ?_⟩
  · rw [List.getElem_cons_drop hw, List.take_append_drop]
  · intro y hy
    obtain ⟨i, hi, rfl⟩ := List.getElem_of_mem hy
    have hi' : i < x.wait := by
      simp only [List.length_take] at hi
      omega
    have := hget i
    rw [h.chip.waits i hi', List.getElem?_eq_getElem (by omega)] at this
    simpa using this
  · simp
    omega
  · rw [List.map_take, hsnd]
    exact h.in_time
  · have := hget x.wait
    rw [h.chip.ready, List.getElem?_eq_getElem hw] at this
    simpa using this
  · simp [hlen, transferCycles]
  · intro q hq
    rw [List.getElem?_drop, hget, ← h.chip.bits q hq]
    congr 1
    omega

/-- A whole transaction (R112 to R124). -/
theorem seqRun_transfer {prm : Params} {x : Transfer} {s : State} (hs : s.st = .rw)
    (h : TransferOk prm s.tmo.toNat x) :
    ∃ tm, seqRun prm (transferInputs x) s = nextState (transactionDone (fixup x.word)
      { s with st := .lo, sck := false, p := 24#5, c := 1, sh := x.word, tmo := tm }) := by
  obtain ⟨ws, r, zs, hx, hws, -, hcount, hr, hzl, hzw⟩ := transferInputs_parts h
  refine ⟨s.tmo - BitVec.ofNat 16 ((ws.map Prod.snd).count true), ?_⟩
  rw [hx, seqRun_append (seqRun_wait hs hws hcount), seqRun_shift x.word (by simpa using hs) hr hzl hzw]

end Sys2Proof.Machine
end

