-- ==== Sys2Proof/Laws/Burst.lean ====
section
/-! SUPPORT. A burst and a delay as runs of the sequencer (spec/42_averaging.md R140 to R142;
spec/43_excitation.md R166), and the arithmetic of the mean (R143, R144). -/

namespace Sys2Proof.Machine

theorem zext32_eq_ofNat (x : Sample) : zext32 x = BitVec.ofNat 32 x.toNat := by
  apply BitVec.eq_of_toNat_eq
  simp [zext32]

theorem toNat_zext32 (x : Sample) : (zext32 x).toNat = x.toNat := by
  have := x.isLt
  simp [zext32]
  omega

/-- A transaction that is not the burst's last starts the next one with the full timeout (R141). -/
theorem transactionDone_more {x : Sample} {s : State} (h : s.k.toNat + 1 < s.n.toNat) :
    transactionDone x s = .next (beginTransaction { s with
      raw := zext32 x, acc := s.acc + zext32 x, k := s.k + 1#8 }) := by
  simp [transactionDone, burstContinue, h]

/-- The burst's last transaction hands the mean on (R141, R142). -/
theorem transactionDone_last {x : Sample} {s : State} (h : ¬ s.k.toNat + 1 < s.n.toNat)
    (hn : s.n ≠ 0#8) :
    transactionDone x s = burstDone (floorMean (s.acc + zext32 x) s.n)
      { s with raw := zext32 x, acc := s.acc + zext32 x } := by
  simp [transactionDone, burstContinue, h, hn]

/-- The inputs of a burst's cycles. -/
def burstInputs (xs : List Transfer) : List (Bool × Bool) := xs.flatMap transferInputs

theorem burstInputs_dout {prm : Params} {n : Nat} {xs : List Transfer}
    (h : ∀ x ∈ xs, TransferOk prm n x) : (burstInputs xs).map Prod.fst = burstDout xs := by
  induction xs with
  | nil => rfl
  | cons x xs ih =>
    have := ih fun y hy => h y (List.mem_cons_of_mem _ hy)
    simp only [burstInputs, burstDout, List.flatMap_cons, List.map_append] at this ⊢
    rw [this, transferInputs_dout (h x (by simp))]

theorem burstInputs_tick {prm : Params} {n : Nat} {xs : List Transfer}
    (h : ∀ x ∈ xs, TransferOk prm n x) : (burstInputs xs).map Prod.snd = burstTick xs := by
  induction xs with
  | nil => rfl
  | cons x xs ih =>
    have := ih fun y hy => h y (List.mem_cons_of_mem _ hy)
    simp only [burstInputs, burstTick, List.flatMap_cons, List.map_append] at this ⊢
    rw [this, transferInputs_tick (h x (by simp))]

theorem burstInputs_length {prm : Params} {n : Nat} {xs : List Transfer}
    (h : ∀ x ∈ xs, TransferOk prm n x) : (burstInputs xs).length = burstCycles prm xs := by
  induction xs with
  | nil => rfl
  | cons x xs ih =>
    have := ih fun y hy => h y (List.mem_cons_of_mem _ hy)
    simp only [burstInputs, burstCycles, List.flatMap_cons, List.length_append, List.map_cons,
      List.sum_cons] at this ⊢
    rw [this, transferInputs_length (h x (by simp))]

/-- A whole burst: it ends with the sum of the raw samples in the accumulator and the last of them in RAW
(R140 to R142). -/
theorem seqRun_burst {prm : Params} {s : State} (xs : List Transfer) (y : Transfer) (hs : s.st = .rw)
    (ht : s.tmo = s.timeoutMs) (hk : s.k.toNat + xs.length + 1 = s.n.toNat)
    (h : ∀ x ∈ xs ++ [y], TransferOk prm s.timeoutMs.toNat x) :
    ∃ tm k, seqRun prm (burstInputs (xs ++ [y])) s =
      nextState (burstDone
        (floorMean (s.acc + BitVec.ofNat 32 (((xs ++ [y]).map rawNat).sum)) s.n)
        { s with
          st := .lo, sck := false, p := 24#5, c := 1, sh := y.word, tmo := tm, k := k,
          raw := zext32 (fixup y.word),
          acc := s.acc + BitVec.ofNat 32 (((xs ++ [y]).map rawNat).sum) }) := by
  induction xs generalizing s with
  | nil =>
    obtain ⟨tm, hrun⟩ := seqRun_transfer hs (by rw [ht]; exact h y (by simp))
    refine ⟨tm, s.k, ?_⟩
    have hn : s.n ≠ 0#8 := by
      intro e
      simp [e] at hk
    have hlast : ¬ s.k.toNat + 1 < s.n.toNat := by
      simp only [List.length_nil] at hk
      omega
    rw [transactionDone_last (by simpa using hlast) (by simpa using hn)] at hrun
    simpa [burstInputs, rawNat, zext32_eq_ofNat] using hrun
  | cons x xs ih =>
    obtain ⟨tm, hrun⟩ := seqRun_transfer hs (by rw [ht]; exact h x (by simp))
    have hkb := s.k.isLt
    have hnb := s.n.isLt
    simp only [List.length_cons] at hk
    have hmore : s.k.toNat + 1 < s.n.toNat := by omega
    rw [transactionDone_more (by simpa using hmore)] at hrun
    have hk1 : (s.k + 1#8).toNat = s.k.toNat + 1 := by
      rw [BitVec.toNat_add]
      simp
      omega
    obtain ⟨tm', k', hrest⟩ := ih (s := beginTransaction { s with
        st := .lo, sck := false, p := 24#5, c := 1, sh := x.word, tmo := tm,
        raw := zext32 (fixup x.word), acc := s.acc + zext32 (fixup x.word), k := s.k + 1#8 })
      rfl rfl (by simp only [beginTransaction, hk1]; omega)
      (fun z hz => h z (by simp at hz ⊢; exact .inr hz))
    refine ⟨tm', k', ?_⟩
    have hcons : burstInputs (x :: xs ++ [y]) = transferInputs x ++ burstInputs (xs ++ [y]) := rfl
    rw [hcons, seqRun_append hrun, hrest]
    simp only [beginTransaction, List.cons_append, List.map_cons, List.sum_cons, zext32_eq_ofNat,
      BitVec.ofNat_add, BitVec.add_assoc]
    rfl

/-- A sum of at most 255 samples fits the accumulator (R144). -/
theorem rawSum_le (xs : List Transfer) : (xs.map rawNat).sum ≤ xs.length * (2 ^ 24 - 1) := by
  induction xs with
  | nil => simp
  | cons x xs ih =>
    have : rawNat x < 2 ^ 24 := (fixup x.word).isLt
    simp only [List.map_cons, List.sum_cons, List.length_cons, Nat.succ_mul]
    omega

/-- The divider returns the floor mean of a burst (R143). -/
theorem floorMean_burst {n : BitVec 8} {xs : List Transfer} (hn : n.toNat = xs.length) :
    floorMean (0#32 + BitVec.ofNat 32 ((xs.map rawNat).sum)) n = BitVec.ofNat 32 (meanNat xs) := by
  have hle := rawSum_le xs
  have hb := n.isLt
  have hlt : (xs.map rawNat).sum < 2 ^ 32 := by
    calc (xs.map rawNat).sum ≤ xs.length * (2 ^ 24 - 1) := hle
      _ ≤ 255 * (2 ^ 24 - 1) := Nat.mul_le_mul_right _ (by omega)
      _ < 2 ^ 32 := by decide
  apply BitVec.eq_of_toNat_eq
  have hdiv : meanNat xs < 2 ^ 32 := Nat.lt_of_le_of_lt (Nat.div_le_self _ _) hlt
  rw [floorMean, BitVec.toNat_udiv, BitVec.zero_add, BitVec.toNat_ofNat, BitVec.toNat_setWidth,
    BitVec.toNat_ofNat, Nat.mod_eq_of_lt hlt, Nat.mod_eq_of_lt (by omega), Nat.mod_eq_of_lt hdiv, hn,
    meanNat]

/-- The mean of samples is a sample (R143). -/
theorem meanNat_lt (xs : List Transfer) : meanNat xs < 2 ^ 24 := by
  cases xs with
  | nil => simp [meanNat]
  | cons x xs =>
    have hle := rawSum_le (x :: xs)
    rw [meanNat, Nat.div_lt_iff_lt_mul (by simp)]
    simp only [List.length_cons] at hle ⊢
    omega

/-- The ticks of a delay after the first of several (R166). -/
theorem delayTicks_cons {d : Nat} {x y : Bool} {ys : List Bool} (h : DelayTicks d (x :: y :: ys)) :
    (x = false → d ≠ 0 ∧ DelayTicks d (y :: ys)) ∧
    (x = true → d ≠ 0 ∧ DelayTicks (d - 1) (y :: ys)) := by
  obtain ⟨-, hcount, hlast⟩ := h
  have hdl : (x :: y :: ys).dropLast = x :: (y :: ys).dropLast := rfl
  rw [hdl] at hcount hlast
  have h0 : d ≠ 0 := by
    intro e
    rw [e] at hcount
    have hmem := List.getLast_mem (l := x :: (y :: ys).dropLast) (by simp)
    rw [List.getLast?_eq_some_getLast (by simp)] at hlast
    cases hz : (x :: (y :: ys).dropLast).getLast (by simp) with
    | false => exact hlast (by rw [hz])
    | true =>
      rw [hz] at hmem
      exact absurd hcount (Nat.pos_iff_ne_zero.mp (List.count_pos_iff.mpr hmem))
  have hlast' : (y :: ys).dropLast.getLast? ≠ some false := by
    cases ys with
    | nil => simp
    | cons z zs =>
      rw [show (y :: z :: zs).dropLast = y :: (z :: zs).dropLast from rfl] at hlast ⊢
      simpa [List.getLast?_cons_cons] using hlast
  refine ⟨fun hx => ⟨h0, by simp, ?_, hlast'⟩, fun hx => ⟨h0, by simp, ?_, hlast'⟩⟩
  · simpa [hx] using hcount
  · rw [hx, List.count_cons_self] at hcount
    omega

/-- One cycle of a delay that is not its last (R166). -/
theorem delay_cycle {prm : Params} {x : Bool × Bool} {y : Bool} {ys : List Bool} {s : State}
    (hs : s.st = .delay) (h : DelayTicks s.dly.toNat (x.2 :: y :: ys)) :
    ∃ d, seqStep prm x.1 x.2 s = .next { s with dly := d } ∧ DelayTicks d.toNat (y :: ys) := by
  obtain ⟨hf, ht⟩ := delayTicks_cons h
  have hne : s.dly.toNat ≠ 0 → s.dly ≠ 0#16 := fun h e => h (by simp [e])
  cases hx : x.2 with
  | false =>
    obtain ⟨h0, h'⟩ := hf hx
    exact ⟨s.dly, by simp [seqStep_of_delay hs, delayStep, hne h0], h'⟩
  | true =>
    obtain ⟨h0, h'⟩ := ht hx
    have hlt := s.dly.isLt
    refine ⟨s.dly - 1#16, by simp [seqStep_of_delay hs, delayStep, hne h0], ?_⟩
    rwa [show (s.dly - 1#16).toNat = s.dly.toNat - 1 by rw [BitVec.toNat_sub]; simp; omega]

/-- A delay: `dly` counts the ticks down, and the cycle after the last of them ends it (R166). -/
theorem seqRun_delay {prm : Params} {xs : List (Bool × Bool)} {s : State} (hs : s.st = .delay)
    (h : DelayTicks s.dly.toNat (xs.map Prod.snd)) :
    seqRun prm xs s = nextState (delayDone { s with dly := 0#16 }) := by
  induction xs generalizing s with
  | nil => exact absurd rfl h.nonempty
  | cons x xs ih =>
    cases xs with
    | nil =>
      have h0 : s.dly = 0#16 := by
        have := h.count
        simp at this
        exact BitVec.eq_of_toNat_eq (by simpa using this.symm)
      have hself : { s with dly := 0#16 } = s := by rw [← h0]
      rw [hself]
      simp only [seqRun, seqStep_of_delay hs, delayStep, h0, if_true,
        if_neg (show s.st ≠ .idle by simp [hs])]
      cases delayDone s <;> rfl
    | cons y ys =>
      obtain ⟨d, hq, h'⟩ := delay_cycle (prm := prm) hs h
      rw [seqRun_cons (by simp [hs]) hq, ih (s := { s with dly := d }) hs h']

end Sys2Proof.Machine
end

