-- ==== Sys2Proof/Laws/Decode.lean ====
section
/-! SUPPORT. The fields of a command word built by the encoder (spec/30_encoding.md R70, R82). -/

namespace Sys2Proof

/-- A word is determined by its five fields (R70). -/
theorem word_eq_of_fields {v w : Word} (ho : opField v = opField w) (ha : argField v = argField w)
    (hr : rsv0Field v = rsv0Field w) (hc : countField v = countField w)
    (hs : rsv1Field v = rsv1Field w) : v = w := by
  have glue : ∀ u : Word,
      rsv1Field u ++ (countField u ++ (rsv0Field u ++ (argField u ++ opField u))) = u := by
    intro u
    apply BitVec.eq_of_getLsbD_eq
    intro i hi
    simp only [rsv1Field, countField, rsv0Field, argField, opField, BitVec.getLsbD_append,
      BitVec.getLsbD_extractLsb']
    split_ifs with h4 h6 h8 h16
    · simp [show i < 4 by omega]
    · simp [show i - 4 < 2 by omega, show 4 + (i - 4) = i by omega]
    · simp [show i ≤ 7 by omega, show 6 + (i - 6) = i by omega]
    · simp [show i - 8 < 8 by omega, show 8 + (i - 8) = i by omega]
    · simp [show i - 16 < 16 by omega, show 16 + (i - 16) = i by omega]
  rw [← glue v, ← glue w, ho, ha, hr, hc, hs]

/-- `base | (c << 8)` has COUNT `c` over a base that leaves bits 15:8 clear (R82). -/
theorem countField_withCount {b : Word} (hb : b.toNat < 256) (c : BitVec 8) :
    countField (withCount b c) = c := by
  apply BitVec.eq_of_getLsbD_eq
  intro i hi
  have hz : b.getLsbD (8 + i) = false := by
    rw [BitVec.getLsbD]
    exact Nat.testBit_lt_two_pow (Nat.lt_of_lt_of_le hb
      (Nat.pow_le_pow_right (show 0 < 2 by decide) (show 8 ≤ 8 + i by omega)))
  simp only [countField, withCount, BitVec.getLsbD_extractLsb', BitVec.getLsbD_or,
    BitVec.getLsbD_shiftLeft, hz]
  simp [hi, show 8 + i < 32 by omega, show i < 32 by omega]

/-- `base | (c << 8)` keeps the other fields of its base (R82). -/
theorem lowField_withCount (b : Word) (c : BitVec 8) (lo len : Nat) (h : lo + len ≤ 8) :
    (withCount b c).extractLsb' lo len = b.extractLsb' lo len := by
  apply BitVec.eq_of_getLsbD_eq
  intro i hi
  simp [withCount, show lo + i < 8 by omega]

theorem opField_withCount (b : Word) (c : BitVec 8) : opField (withCount b c) = opField b :=
  lowField_withCount b c 0 4 (by decide)

theorem argField_withCount (b : Word) (c : BitVec 8) : argField (withCount b c) = argField b :=
  lowField_withCount b c 4 2 (by decide)

theorem rsv0Field_withCount (b : Word) (c : BitVec 8) : rsv0Field (withCount b c) = rsv0Field b :=
  lowField_withCount b c 6 2 (by decide)

theorem rsv1Field_withCount (b : Word) (c : BitVec 8) : rsv1Field (withCount b c) = rsv1Field b := by
  apply BitVec.eq_of_getLsbD_eq
  intro i hi
  have hz : c.getLsbD (16 + i - 8) = false := BitVec.getLsbD_of_ge c _ (by omega)
  simp only [rsv1Field, withCount, BitVec.getLsbD_extractLsb', BitVec.getLsbD_or,
    BitVec.getLsbD_shiftLeft, BitVec.getLsbD_setWidth, hz]
  simp

/-- OP of a command's word, the value `accept` records (R29, R71). -/
theorem opField_encode (i : Instr) :
    opField (encode i) = match i with
      | .nop => 0
      | .readRaw => 1
      | .average _ => 2
      | .sampleDc _ => 3
      | .sampleAc _ => 3
      | .setphOff => 4
      | .setphPos => 4
      | .setphNeg => 4 := by
  cases i <;> simp only [encode, opField_withCount] <;> decide

end Sys2Proof
end

