-- ==== Sys2Proof/Laws/Levels.lean ====
section
/-! SUPPORT. The output lines along the stretches of a run (spec/41_transport.md R111, R117;
spec/43_excitation.md R177), and a run from the write of its command word (spec/40_command.md R92, R93). -/

namespace Sys2Proof.Machine

/-- A level that `sck` and the phase determine, such as those of the three output lines (R28, R45). -/
def lineLevel (g : Bool → Phase → Bool) (s : State) : Bool := g s.sck s.phase

variable {g : Bool → Phase → Bool} {prm : Params}

/-- The lines stay through the ready wait (R113). -/
theorem seqLevels_wait {xs : List (Bool × Bool)} {s : State} (hs : s.st = .rw)
    (hd : ∀ x ∈ xs, x.1 = true) (ht : (xs.map Prod.snd).count true < s.tmo.toNat) :
    seqLevels (lineLevel g) prm xs s = List.replicate xs.length (lineLevel g s) := by
  induction xs generalizing s with
  | nil => rfl
  | cons x xs ih =>
    obtain ⟨d, t⟩ := x
    obtain rfl : d = true := hd (d, t) (by simp)
    have hrest := fun y hy => hd y (List.mem_cons_of_mem _ hy)
    rw [seqLevels_cons (seqStep_of_rw hs)]
    cases t
    · simpa [rwStep, List.replicate_succ] using ih hs hrest (by simpa using ht)
    · simp only [List.map_cons, List.count_cons_self] at ht
      have h1 : s.tmo ≠ 1#16 := by
        intro e
        simp [e] at ht
      have hlt : s.tmo.toNat < 2 ^ 16 := s.tmo.isLt
      have hsub : (s.tmo - 1#16).toNat = s.tmo.toNat - 1 := by
        rw [BitVec.toNat_sub]
        simp
        omega
      simp only [rwStep, h1, Bool.true_eq_false, if_false, if_true]
      rw [ih (s := { s with tmo := s.tmo - 1#16 }) hs hrest (by simp only [hsub]; omega)]
      rfl

/-- The lines stay through a high phase (R115). -/
theorem seqLevels_high (ys : List (Bool × Bool)) (x : Bool × Bool) {s : State}
    (hs : s.st = .hi) (hc : s.c = ys.length + 1) :
    seqLevels (lineLevel g) prm (ys ++ [x]) s = List.replicate s.c (lineLevel g s) := by
  induction ys generalizing s with
  | nil =>
    rw [List.nil_append, seqLevels_cons (seqStep_of_hi hs), hc]
    rfl
  | cons y ys ih =>
    have h1 : 1 < s.c := by simp [hc]
    rw [List.cons_append, seqLevels_cons (seqStep_of_hi hs)]
    simp only [hiStep, h1, if_true]
    rw [ih (s := { s with c := s.c - 1 }) hs (by simp [hc]), hc]
    rfl

/-- The lines stay through a low phase (R116). -/
theorem seqLevels_low (ys : List (Bool × Bool)) (x : Bool × Bool) {s : State}
    (hs : s.st = .lo) (hc : s.c = ys.length + 1) :
    seqLevels (lineLevel g) prm (ys ++ [x]) s = List.replicate s.c (lineLevel g s) := by
  induction ys generalizing s with
  | nil =>
    rw [List.nil_append, seqLevels, hc]
    cases seqStep prm x.1 x.2 s <;> rfl
  | cons y ys ih =>
    have h1 : 1 < s.c := by simp [hc]
    have hq : seqStep prm y.1 y.2 s = .next { s with c := s.c - 1 } := by
      rw [seqStep_of_lo hs]
      simp [loStep, h1]
    rw [List.cons_append, seqLevels_cons hq, ih (s := { s with c := s.c - 1 }) hs (by simp [hc]), hc]
    rfl

/-- One pulse: `H` cycles high, `L` cycles low, the phase as it is (R111). -/
theorem seqLevels_pulse {zs : List (Bool × Bool)} {s : State} (hs : s.st = .hi) (hc : s.c = prm.H)
    (hk : s.sck = true) (hl : zs.length = prm.H + prm.L) :
    seqLevels (lineLevel g) prm zs s =
      List.replicate prm.H (g true s.phase) ++ List.replicate prm.L (g false s.phase) := by
  obtain ⟨ys, y, ys', y', hz, h1, h2, -⟩ := pulse_parts hl
  rw [hz, seqLevels_append (seqRun_high ys y hs (by omega)), seqLevels_high ys y hs (by omega),
    seqLevels_low ys' y' rfl (by simp [h2]), hc]
  simp [lineLevel, hk]

/-- A level that `dly` does not change stays through a delay (R166). -/
theorem seqLevels_delay {f : State → Bool} (hf : ∀ v d, f { v with dly := d } = f v)
    {xs : List (Bool × Bool)} {s : State} (hs : s.st = .delay)
    (h : DelayTicks s.dly.toNat (xs.map Prod.snd)) :
    seqLevels f prm xs s = List.replicate xs.length (f s) := by
  induction xs generalizing s with
  | nil => rfl
  | cons x xs ih =>
    cases xs with
    | nil =>
      rw [seqLevels]
      cases seqStep prm x.1 x.2 s <;> rfl
    | cons y ys =>
      obtain ⟨d, hq, h'⟩ := delay_cycle (prm := prm) hs h
      rw [seqLevels_cons hq, ih (s := { s with dly := d }) hs h',
        show f { s with dly := d } = f s from hf s d]
      rfl

/-- A run from the write of a command word: acceptance in one cycle, then the sequencer on the levels that
follow (R92, R93). -/
theorem launched_run {s v u : State} {w : Word} {xs : List (Bool × Bool)} {i : Instr}
    (h : Launched prm s w (xs.map Prod.fst) (xs.map Prod.snd)) (hd : decode w = .cmd i)
    (he : exec i s = .next v) (hv : v.env = s.env) (hr : seqRun prm xs v = some u) :
    ∃ b e, cycles prm (1 + xs.length) s = .next (setOuter b e u) ∧
      ∀ f : State → Bool, (∀ b e s, f (setOuter b e s) = f s) →
        levels f prm (1 + xs.length) s = f s :: seqLevels f prm xs v := by
  obtain ⟨hi, ⟨rest, hh, hrest⟩, ⟨d, dr, hdout⟩, ⟨t, tr, htick⟩⟩ := h
  have hp : hostPins s = writePins idxCmd w := by simp [hostPins, hh]
  have hc1 : cycle prm s = .next (endCycle 0#32 false v) := by
    rw [cycle_of_resolve (a := .write idxCmd w) (by rw [hp]; rfl) (by rw [hp]; rfl), runCycle]
    simp [hostPart, hostWrite, cmdWrite, hd, he, hi, isRead, portRead]
  have hcalm : Calm prm (endCycle 0#32 false v) := by
    intro x hx
    simp [endCycle, envNext, hostRest, hv, hh] at hx
    exact hrest x hx
  have hr' := seqRun_outer v.drop (endCycle 0#32 false v).env hr
  have hd' : (endCycle 0#32 false v).env.dout = xs.map Prod.fst ++ dr := by
    simp [endCycle, envNext, hv, hdout]
  have ht' : (endCycle 0#32 false v).env.tick = xs.map Prod.snd ++ tr := by
    simp [endCycle, envNext, hv, htick]
  obtain ⟨b, e, hcy, -⟩ := cycles_of_seqRun hcalm hd' ht' hr'
  refine ⟨b, e, ?_, fun f hf => ?_⟩
  · rw [Nat.add_comm]
    simpa [cycles, hc1] using hcy
  · rw [Nat.add_comm]
    simp only [levels, hc1]
    congr 1
    rw [levels_of_seqRun hf hcalm hd' ht' hr']
    exact seqLevels_outer hf v.drop (endCycle 0#32 false v).env hr

end Sys2Proof.Machine
end

