-- ==== Sys2Proof/Laws/PerInstr.lean ====
section
/-! SUPPORT. Statements made of every command, one lemma a constructor: the encoder's word lies in the
command's row of the opcode table (spec/30_encoding.md R77). -/

namespace Sys2Proof

/-- COUNT lies outside the bits a row of the table fixes (R77). -/
theorem withCount_and_mask (base : Word) (c : BitVec 8) (hb : base &&& 0xFFFF00FF#32 = base) :
    withCount base c &&& 0xFFFF00FF#32 = base := by
  have hc : (c.setWidth 32 <<< 8) &&& 0xFFFF00FF#32 = 0#32 := by
    apply BitVec.eq_of_getLsbD_eq
    intro i hi
    simp only [BitVec.getLsbD_and, BitVec.getLsbD_shiftLeft, BitVec.getLsbD_setWidth,
      BitVec.getLsbD_zero]
    by_cases h8 : i < 8
    · simp [h8]
    · by_cases h16 : i < 16
      · have hm : (0xFFFF00FF#32).getLsbD i = false := by
          interval_cases i <;> rfl
        simp [hm]
      · rw [BitVec.getLsbD_of_ge c (i - 8) (by omega)]
        simp
  apply BitVec.eq_of_getLsbD_eq
  intro i hi
  have h1 := congrArg (fun v => v.getLsbD i) hb
  have h2 := congrArg (fun v => v.getLsbD i) hc
  simp only [BitVec.getLsbD_and, BitVec.getLsbD_zero] at h1 h2
  simp only [withCount, BitVec.getLsbD_and, BitVec.getLsbD_or, Bool.and_or_distrib_right, h1, h2,
    Bool.or_false]

/-- The word of a command is in its row: `(w and mask) == match` (R77). -/
def Laws.TableRow.Statement (i : Instr) : Prop := encode i &&& tableMask i = tableMatch i

theorem Laws.TableRow.nop : Laws.TableRow.Statement .nop := by
  unfold Laws.TableRow.Statement; decide

theorem Laws.TableRow.readRaw : Laws.TableRow.Statement .readRaw := by
  unfold Laws.TableRow.Statement; decide

theorem Laws.TableRow.average (count : BitVec 8) : Laws.TableRow.Statement (.average count) :=
  withCount_and_mask _ count (by decide)

theorem Laws.TableRow.sampleDc (count : BitVec 8) : Laws.TableRow.Statement (.sampleDc count) :=
  withCount_and_mask _ count (by decide)

theorem Laws.TableRow.sampleAc (count : BitVec 8) : Laws.TableRow.Statement (.sampleAc count) :=
  withCount_and_mask _ count (by decide)

theorem Laws.TableRow.setphOff : Laws.TableRow.Statement .setphOff := by
  unfold Laws.TableRow.Statement; decide

theorem Laws.TableRow.setphPos : Laws.TableRow.Statement .setphPos := by
  unfold Laws.TableRow.Statement; decide

theorem Laws.TableRow.setphNeg : Laws.TableRow.Statement .setphNeg := by
  unfold Laws.TableRow.Statement; decide

end Sys2Proof
end

