-- ==== Sys2Proof/Tests/Slice0.lean ====
section
/-! SUPPORT. Tests on the vectors of spec/95_test_vectors.md and on worked examples of the rules, one step on a
small state each, and for every obligation with hypotheses a state and operands that meet them together
(`witness_…`). -/

namespace Sys2Proof.Tests

open Sys2Proof.Machine

/-- The parameters most vectors use: H = L = 1, PWR_ON = POL_NEG = 1, and the BASE of vector H8; where no levels
are listed, `dout` stays high and every cycle ticks. -/
def prm : Params where
  H := 1
  L := 1
  pwrOn := true
  polNeg := true
  base := 0x40000000
  freeDout := fun _ => true
  freeTick := fun _ => true
  H_pos := Nat.le_refl 1
  L_pos := Nat.le_refl 1

/-- Reset state with these levels coming on `dout` and `tick_ms`. -/
def atReset (dout tick : List Bool) : State :=
  { State.reset with env := { Env.start with dout := dout, tick := tick } }

/-- The state one cycle after `s`, with these pins driven by the host. -/
def after (p : HostPins) (s : State) : Option State := nextState (cycle prm (hostDoes p s))

/-- A running READ_RAW in its ready wait. -/
def waiting : State :=
  { atReset [true, true] [false, false] with
    st := .rw, stage := .raws, op := 1#4, n := 1#8, tmo := 2#16 }

/-- A running READ_RAW in the high phase of pulse `p`, with `c` cycles left. -/
def highPhase (p : BitVec 5) (c : Nat) : State :=
  { atReset [true] [false] with
    st := .hi, stage := .raws, op := 1#4, n := 1#8, tmo := 2#16, p := p, c := c, sck := true }

/-- A running READ_RAW in the low phase of pulse `p`, with `c` cycles left. -/
def lowPhase (p : BitVec 5) (c : Nat) : State :=
  { atReset [true] [false] with
    st := .lo, stage := .raws, op := 1#4, n := 1#8, tmo := 2#16, p := p, c := c }

/-- A running SAMPLE_AC in a delay of `d` ticks. -/
def delaying (stage : Stage) (d : BitVec 16) : State :=
  { atReset [true] [false] with
    st := .delay, stage := stage, op := 3#4, n := 2#8, dly := d,
    phase := if stage = .setn then .negative else .positive }

/-! ### Ill-formed terms (R73, R52, R57) -/

theorem test_wf_count_zero :
    (Instr.average 0#8).wf = false ∧ (Instr.sampleDc 0#8).wf = false ∧
    (Instr.sampleAc 0#8).wf = false ∧ (Instr.average 1#8).wf = true ∧
    (Instr.sampleDc 255#8).wf = true ∧ (Instr.sampleAc 2#8).wf = true := by decide

theorem test_both_strobes_refused : resolve prm (.port true true 2#4 0#32) = .error .bothStrobes := rfl

theorem test_bus_refuses :
    resolve prm (.memRead 0x40000004 2) = .error .busAccess ∧
    resolve prm (.memRead 0x40000005 4) = .error .busAccess ∧
    resolve prm (.memWrite 0x40000040 4 0#32) = .error .busAccess ∧
    resolve prm (.memWrite 0x3FFFFFFC 4 0#32) = .error .busAccess := ⟨rfl, rfl, rfl, rfl⟩

/-- H8, and the last word of the window. -/
theorem test_bus_addresses :
    resolve prm (.memRead 0x40000004 4) = .ok (.read idxStatus) ∧
    resolve prm (.memRead 0x40000008 4) = .ok (.read idxResult) ∧
    resolve prm (.memRead 0x40000020 4) = .ok (.read idxSettle) ∧
    resolve prm (.memWrite 0x4000003C 4 1#32) = .ok (.write 15#4 1#32) := ⟨rfl, rfl, rfl, rfl⟩

/-! ### Decoding: words written out from R70 and R77 (vectors E1 to E22) -/

theorem test_decode_nop : decode 0b00000000000000000000000000000000#32 = .cmd .nop := by decide

theorem test_decode_readRaw : decode 0b00000000000000000000000000000001#32 = .cmd .readRaw := by decide

theorem test_decode_average : decode 0b00000000000000001111111100000010#32 = .cmd (.average 255#8) := by
  decide

theorem test_decode_sampleDc : decode 0b00000000000000000000000100000011#32 = .cmd (.sampleDc 1#8) := by
  decide

theorem test_decode_sampleAc : decode 0b00000000000000000000001000010011#32 = .cmd (.sampleAc 2#8) := by
  decide

theorem test_decode_setphOff : decode 0b00000000000000000000000000000100#32 = .cmd .setphOff := by decide

theorem test_decode_setphPos : decode 0b00000000000000000000000000010100#32 = .cmd .setphPos := by decide

theorem test_decode_setphNeg : decode 0b00000000000000000000000000100100#32 = .cmd .setphNeg := by decide

/-- COUNT = 0 decodes (E5, E11). -/
theorem test_decode_count_zero :
    decode 0x00000002#32 = .cmd (.average 0#8) ∧ decode 0x00000013#32 = .cmd (.sampleAc 0#8) := by decide

/-- E3, E4, E9, E15, E16. -/
theorem test_decode_illegal_fields :
    decode 0x00000101#32 = .illegal .count ∧ decode 0x00000011#32 = .illegal .argument ∧
    decode 0x00000123#32 = .illegal .argument ∧ decode 0x00000034#32 = .illegal .phaseThree ∧
    decode 0x00000104#32 = .illegal .count := by decide

/-- E17 to E22. -/
theorem test_decode_illegal_reserved :
    decode 0x00000042#32 = .illegal .reservedBits ∧ decode 0x00000082#32 = .illegal .reservedBits ∧
    decode 0x00010002#32 = .illegal .reservedBits ∧ decode 0x80000001#32 = .illegal .reservedBits ∧
    decode 0x00000005#32 = .illegal .operation ∧ decode 0x0000000F#32 = .illegal .operation := by decide

theorem test_decodeTableWord :
    decodeTableWord 32 0x00000213 = some (.sampleAc 2#8) ∧ decodeTableWord 32 0x00000034 = none := by
  decide

/-- R82: AVERAGE 3 is `0x0000_0302`. -/
theorem test_scriptWord : scriptWord .average 3#8 = 0x00000302#32 := by decide

/-- R81: an omitted count is 2. -/
theorem test_assemble_default_count :
    assemble [.cmd .sampleAc none] = [.pins (writePins idxCmd 0x00000213#32)] := by decide

/-! ### Commands at acceptance: STATUS in the next cycle (vectors E1 to E26) -/

/-- STATUS one cycle after `w` is written to CMD in state `s`. -/
def statusAfter (w : Word) (s : State) : Option Word :=
  (after (writePins idxCmd w) s).map fun t => readValue prm t idxStatus

theorem test_nop_status : statusAfter 0x00000000#32 (atReset [] []) = some 0x00000000#32 := by decide

theorem test_readRaw_status : statusAfter 0x00000001#32 (atReset [] []) = some 0x00010001#32 := by decide

theorem test_average_status : statusAfter 0x0000FF02#32 (atReset [] []) = some 0x00020001#32 := by decide

theorem test_sampleDc_status : statusAfter 0x00000103#32 (atReset [] []) = some 0x00030001#32 := by decide

theorem test_sampleAc_status : statusAfter 0x00000213#32 (atReset [] []) = some 0x00030501#32 := by decide

/-- E5 and E11: COUNT = 0 ends with PARAM. -/
theorem test_count_zero_status :
    statusAfter 0x00000002#32 (atReset [] []) = some 0x0002000C#32 ∧
    statusAfter 0x00000013#32 (atReset [] []) = some 0x0003000C#32 := by decide

theorem test_setphOff_status : statusAfter 0x00000004#32 (atReset [] []) = some 0x00040000#32 := by decide

theorem test_setphPos_status : statusAfter 0x00000014#32 (atReset [] []) = some 0x00040500#32 := by decide

theorem test_setphNeg_status : statusAfter 0x00000024#32 (atReset [] []) = some 0x00040E00#32 := by decide

/-- E3 and E22: rejected, with SENTINEL in RESULT. -/
theorem test_illegal_status :
    statusAfter 0x00000101#32 (atReset [] []) = some 0x00010008#32 ∧
    statusAfter 0x0000000F#32 { atReset [] [] with result := 5#32 } = some 0x000F0008#32 := by decide

/-- E23 to E26: TIMEOUT_MS = 0. -/
theorem test_timeout_zero_status :
    statusAfter 0x00000101#32 { atReset [] [] with timeoutMs := 0#16 } = some 0x00010008#32 ∧
    statusAfter 0x00000001#32 { atReset [] [] with timeoutMs := 0#16 } = some 0x0001000C#32 ∧
    statusAfter 0x00000000#32 { atReset [] [] with timeoutMs := 0#16 } = some 0x00000000#32 ∧
    statusAfter 0x00000014#32 { atReset [] [] with timeoutMs := 0#16 } = some 0x00040500#32 := by decide

/-- R98's example: NOP after a timeout clears STATUS and keeps RESULT. -/
theorem test_nop_clears :
    (after (writePins idxCmd 0#32) { atReset [] [] with op := 1#4, err := .timeout, drop := true }).map
      (fun t => (readValue prm t idxStatus, t.result)) = some (0#32, 0x80000000#32) := by decide

/-- `step` runs a command placed by `withFetchWord`, with this block's own parameters. -/
theorem test_step_runs_placed_word :
    (nextState (step ((atReset [] []).withFetchWord 32 0x14))).map (fun t => (t.phase, t.op)) =
      some (.positive, 4#4) := by decide

/-! ### The host port (vectors H1 to H11) -/

/-- H1. -/
theorem test_timeout_write :
    (after (writePins idxTimeout 0x12345678#32) (atReset [] [])).map
      (fun t => (readValue prm t idxTimeout, t.drop)) = some (0x00005678#32, false) := by decide

/-- H3. -/
theorem test_config_write_busy :
    (after (writePins idxWarmup 7#32) waiting).map (fun t => (t.warmupMs, t.drop)) =
      some (5000#16, true) := by decide

/-- H4. -/
theorem test_cmd_write_busy :
    (after (writePins idxCmd 5#32) waiting).map (fun t => (t.op, t.err, t.drop)) =
      some (1#4, .none, true) := by decide

/-- H6 and H7. -/
theorem test_reads_at_reset :
    readValue prm State.reset 0#4 = 0#32 ∧ readValue prm State.reset 9#4 = 0#32 ∧
    readValue prm State.reset 15#4 = 0#32 ∧
    readValue prm State.reset idxTimeout = 0x00000BB8#32 ∧
    readValue prm State.reset idxWarmup = 0x00001388#32 ∧
    readValue prm State.reset idxSettle = 0x0000000A#32 := by decide

/-- H9. -/
theorem test_byte_lanes :
    (List.range 4).map (busByte prm { State.reset with result := 0x00923456#32 } idxResult) =
      [0x56#8, 0x34#8, 0x92#8, 0x00#8] := by decide

/-- R53: the read of a cycle returns the state at its start, and nothing changes. -/
theorem test_read_result :
    (after (readPins idxResult) (atReset [] [])).map (fun t => (t.env.hrdata, t.result)) =
      some (0x80000000#32, 0x80000000#32) := by decide

/-- R210: a reset cycle does not perform its write. -/
theorem test_reset_ignores_write :
    (after ⟨true, .port false true idxTimeout 7#32⟩ waiting).map (fun t => (t.st, t.timeoutMs)) =
      some (.idle, 3000#16) := by decide

/-! ### The sequencer (vectors T1 to T13, A1 to A8, X1 to X10, W1, W2, L1 to L4) -/

/-- T1 to T8. -/
theorem test_fixup :
    ([0x000000#24, 0x7FFFFF#24, 0x800000#24, 0xFFFFFF#24, 0x123456#24, 0xA5A5A5#24, 0xFEDCBA#24,
      0x000001#24].map fun w => zext32 (fixup w)) =
    [0x00800000#32, 0x00FFFFFF#32, 0x00000000#32, 0x007FFFFF#32, 0x00923456#32, 0x0025A5A5#32,
      0x007EDCBA#32, 0x00800001#32] := by decide

/-- T10: a tick with `tmo = 1` times out. -/
theorem test_timeout_tick :
    (fun t => (t.st, t.err, t.result)) (rwStep prm true true { waiting with tmo := 1#16 }) =
      (.idle, .timeout, 0x80000000#32) := by decide

/-- P4: the STATUS and RESULT the host reads after the timeout of a READ_RAW (S1). -/
theorem test_timeout_status :
    (nextState (cycle prm { atReset [true] [true] with
      st := .rw, stage := .raws, op := 1#4, n := 1#8, tmo := 1#16 })).map
      (fun t => (readValue prm t idxStatus, t.result)) = some (0x00010004#32, 0x80000000#32) := by decide

/-- P8: a timeout in the Negative burst of SAMPLE_AC turns the bridge off. -/
theorem test_timeout_negative_burst_status :
    (nextState (cycle prm { atReset [true] [true] with
      st := .rw, stage := .burn, op := 3#4, n := 1#8, tmo := 1#16, phase := .negative,
      valp := 0x00800010#32 })).map
      (fun t => (readValue prm t idxStatus, t.valp, t.valn)) =
      some (0x00030004#32, 0x00800010#32, 0#32) := by decide

/-- R100, R161: a timeout of SAMPLE_DC leaves the phase as it is (OP 3, ERR TIMEOUT, phase Positive, PWR). -/
theorem test_timeout_dc_keeps_phase :
    (nextState (cycle prm { atReset [true] [true] with
      st := .rw, stage := .dc, op := 3#4, n := 1#8, tmo := 1#16, phase := .positive })).map
      (fun t => readValue prm t idxStatus) = some 0x00030504#32 := by decide

/-- T11: ready wins over the tick. -/
theorem test_ready_wins :
    (fun t => (t.st, t.err, t.sck)) (rwStep prm false true { waiting with tmo := 1#16 }) =
      (.hi, .none, true) := by decide

/-- T12: a tick counts `tmo` down to 1. -/
theorem test_tick_counts : (rwStep prm true true waiting).tmo = 1#16 := by decide

/-- R115, R118: pulse 0 gives the most significant bit, pulse 23 bit 0, pulse 24 none. -/
theorem test_sample_positions :
    (hiStep prm true (highPhase 0#5 1)).sh = 0x800000#24 ∧
    (hiStep prm true (highPhase 23#5 1)).sh = 0x000001#24 ∧
    (hiStep prm true (highPhase 24#5 1)).sh = 0x000000#24 := by decide

/-- R123's example: the chip word `0x123456` gives RESULT = RAW = `0x0092_3456`. -/
theorem test_readRaw_completes :
    (nextState (loStep prm { lowPhase 24#5 1 with sh := 0x123456#24 })).map
      (fun t => (t.st, t.valid, t.result, t.raw)) =
    some (.idle, true, 0x00923456#32, 0x00923456#32) := by decide

/-- A2, A4, A5, A6 and A8: the divider. -/
theorem test_floorMean :
    floorMean 0xFEFFFF01#32 255#8 = 0x00FFFFFF#32 ∧ floorMean 0x01800005#32 3#8 = 0x00800001#32 ∧
    floorMean 0x00000001#32 2#8 = 0#32 ∧ floorMean 0x01FFFFFD#32 2#8 = 0x00FFFFFE#32 ∧
    floorMean 0x00FFFFFF#32 2#8 = 0x007FFFFF#32 := by decide

/-- A4's last transaction completes AVERAGE 3 with the floor. -/
theorem test_average_completes :
    (nextState (transactionDone 0x800002#24 { lowPhase 24#5 1 with
      stage := .avg, n := 3#8, k := 2#8, acc := 0x01000003#32 })).map (fun t => (t.result, t.valid)) =
    some (0x00800001#32, true) := by decide

/-- X1, X2, X4, X5, X6, X7, X8 and X10. -/
theorem test_combineAc :
    combineAc 300#32 100#32 = 0x00000064#32 ∧ combineAc 301#32 100#32 = 0x00000064#32 ∧
    combineAc 100#32 301#32 = 0xFFFFFF9B#32 ∧ combineAc 101#32 300#32 = 0xFFFFFF9C#32 ∧
    combineAc 0xFFFFFF#32 0#32 = 0x007FFFFF#32 ∧ combineAc 0#32 0xFFFFFF#32 = 0xFF800000#32 ∧
    combineAc 7#32 8#32 = 0xFFFFFFFF#32 ∧ combineAc 0x7FFC4A#32 0x80041A#32 = 0xFFFFFC18#32 := by
  decide

/-- R165's example: `valp = 100`, `valn = 300`, and the bridge off. -/
theorem test_sampleAc_completes :
    (nextState (burstDone 300#32 { lowPhase 24#5 1 with
      stage := .burn, phase := .negative, valp := 100#32 })).map
      (fun t => (t.result, t.valn, t.phase, t.st)) = some (100#32, 300#32, .off, .idle) := by decide

/-- R174's example: the mean 150. -/
theorem test_sampleDc_completes :
    (nextState (burstDone 150#32 { lowPhase 24#5 1 with stage := .dc, valp := 9#32 })).map
      (fun t => (t.result, t.valp, t.valn)) = some (0x00000096#32, 0#32, 150#32) := by decide

/-- W1: a delay of 0 ends in its first cycle. W2: a delay of 1 counts its tick first. -/
theorem test_delay_ends :
    (nextState (delayStep true (delaying .warm 0#16))).map (fun t => (t.stage, t.dly)) =
      some (.setp, 10#16) ∧
    (nextState (delayStep true (delaying .warm 1#16))).map (fun t => (t.stage, t.dly)) =
      some (.warm, 0#16) := by decide

/-- L1 and L4: `pwr` and `pol` in Off, Positive and Negative. -/
theorem test_lines :
    ([Phase.off, .positive, .negative].map fun f =>
      (pwr prm { State.reset with phase := f }, pol prm { State.reset with phase := f })) =
      [(false, false), (true, false), (true, true)] ∧
    ([Phase.off, .positive, .negative].map fun f =>
      (pwr { prm with pwrOn := false } { State.reset with phase := f },
        pol { prm with pwrOn := false } { State.reset with phase := f })) =
      [(true, false), (false, false), (false, true)] := by decide

/-! ### Witnesses: for each obligation with hypotheses, values that meet them all -/

/-- A cycle that answers a next state. -/
theorem next_of_isSome {o : Answer} (h : (nextState o).isSome = true) : ∃ t, o = .next t := by
  cases o with
  | next t => exact ⟨t, rfl⟩
  | fault r => cases h
  | refused r => cases h

/-- A host with nothing to do is calm. -/
theorem calm_of_nil {s : State} (h : s.env.host = []) : Calm prm s := by
  intro x hx
  rw [h] at hx
  cases hx

theorem witness_EncodeOfDecodeIsTheWord : ∃ w i, decode w = .cmd i :=
  ⟨0x0000FF03#32, .sampleDc 255#8, by decide⟩

/-- A word of each row with a COUNT, and an illegal word. -/
theorem witness_DecoderIsTheOpcodeTable :
    0x0000FF02#32 &&& 0xFFFF00FF#32 = 0x00000002#32 ∧ 0x00000103#32 &&& 0xFFFF00FF#32 = 0x00000003#32 ∧
    0x00000013#32 &&& 0xFFFF00FF#32 = 0x00000013#32 ∧ decode 0x0000FF02#32 = .cmd (.average 255#8) ∧
    decode 0x00000034#32 = .illegal .phaseThree := by decide

theorem witness_NopClearsTheFlags : State.reset.st = .idle := rfl

theorem witness_SetPhaseSetsThePhase : ({ State.reset with phase := .negative }).st = .idle := rfl

/-- The least and the greatest legal COUNT, with the least legal TIMEOUT_MS. -/
theorem witness_SamplingCommandsStartABurst :
    ∃ s : State, s.st = .idle ∧ s.timeoutMs ≠ 0#16 ∧ 1#8 ≠ 0#8 ∧ 255#8 ≠ 0#8 :=
  ⟨{ State.reset with timeoutMs := 1#16 }, by decide⟩

theorem witness_SampleAcStartsTheWarmUp :
    ∃ (s : State) (c : BitVec 8), s.st = .idle ∧ s.timeoutMs ≠ 0#16 ∧ c ≠ 0#8 :=
  ⟨{ State.reset with warmupMs := 0#16 }, 255#8, by decide⟩

/-- TIMEOUT_MS = 0 alone, COUNT = 0 alone. -/
theorem witness_BadParametersAreRejected :
    (∃ s : State, s.st = .idle ∧ s.timeoutMs = 0#16) ∧
    (∃ (s : State) (c : BitVec 8), s.st = .idle ∧ c = 0#8 ∧ s.timeoutMs ≠ 0#16) :=
  ⟨⟨{ State.reset with timeoutMs := 0#16 }, by decide⟩, ⟨State.reset, 0#8, by decide⟩⟩

/-- A dropped, a rejected and an accepted word. -/
theorem witness_CommandsLeaveTheRestUnchanged :
    waiting.st ≠ .idle ∧ paramOk (.sampleAc 0#8) State.reset = false ∧
    paramOk (.average 255#8) State.reset = true := by decide

theorem witness_StepRunsTheDecodedCommand :
    ∃ (s : State) (w : Word) (i : Instr), hostPins s = writePins idxCmd w ∧ decode w = .cmd i :=
  ⟨hostDoes (writePins idxCmd 0x00000213#32) waiting, 0x00000213#32, .sampleAc 2#8, rfl, by decide⟩

theorem witness_IllegalWordsAreRejected :
    State.reset.st = .idle ∧ decode 0x00000005#32 = .illegal .operation := by decide

theorem witness_ConfigurationWritesAreStored : (atReset [] []).st = .idle := rfl

/-- Each of the four indices, while a command runs. -/
theorem witness_BusyWritesOnlySetDrop :
    ∃ t, waiting.st ≠ .idle ∧ [0#4, 6#4, 7#4, 8#4].all (fun i => i = 0#4 ∨ i = 6#4 ∨ i = 7#4 ∨ i = 8#4) ∧
      cycle prm (hostDoes idlePins waiting) = .next t := by
  obtain ⟨t, h⟩ := next_of_isSome (o := cycle prm (hostDoes idlePins waiting)) (by decide)
  exact ⟨t, by decide, by decide, h⟩

/-- The ends of both ranges of indices. -/
theorem witness_ReadOnlyWritesHaveNoEffect :
    [1#4, 5#4, 9#4, 15#4].all (fun i => (1 ≤ i.toNat ∧ i.toNat ≤ 5) ∨ 9 ≤ i.toNat) = true := by decide

theorem witness_ReadsHaveNoSideEffect : ∃ t, cycle prm (hostDoes idlePins waiting) = .next t :=
  next_of_isSome (by decide)

/-- Each code of ERR and of PHASE. -/
theorem witness_RegistersReadAsMapped :
    (∀ e ∈ [Err.none, .timeout, .illegal, .param], ({ State.reset with err := e }).err = e) ∧
    ∀ f ∈ [Phase.off, .positive, .negative], ({ State.reset with phase := f }).phase = f := by decide

/-- The first and the last reserved index, while a command runs. -/
theorem witness_ReservedIndicesAreInert :
    9 ≤ (9#4).toNat ∧ 9 ≤ (15#4).toNat ∧
    ∃ t, cycle prm (hostDoes (writePins 15#4 1#32) waiting) = .next t :=
  ⟨by decide, by decide, next_of_isSome (by decide)⟩

/-- Just below the window, just above it, misaligned at its last word, and a narrow access. -/
theorem witness_BusAccessesAreWholeWords :
    ¬ (4 = 4 ∧ ∃ i < 16, 0x3FFFFFFC = prm.base + 4 * i) ∧
    ¬ (4 = 4 ∧ ∃ i < 16, 0x40000040 = prm.base + 4 * i) ∧
    ¬ (4 = 4 ∧ ∃ i < 16, 0x4000003D = prm.base + 4 * i) ∧
    ¬ (2 = 4 ∧ ∃ i < 16, 0x40000000 = prm.base + 4 * i) := by decide

theorem witness_ResetCycleResetsTheBlock :
    resolve prm (.port false true idxCmd 1#32) = .ok (.write idxCmd 1#32) := rfl

theorem witness_ResetValuesAreTheTable : prm.pwrOn = true ∧ prm.polNeg = true := by decide

theorem witness_LinesFollowThePhase :
    ∀ f ∈ [Phase.off, .positive, .negative], ({ State.reset with phase := f }).phase = f := by decide

/-- A `wait_idle` while a command runs and one while none does. -/
theorem witness_WaitIdlePollsUntilIdle :
    (∃ t, waiting.st ≠ .idle ∧
      cycle prm { waiting with env := { waiting.env with host := [.waitIdle] } } = .next t) ∧
    (∃ t, State.reset.st = .idle ∧
      cycle prm { State.reset with env := { Env.start with host := [.waitIdle] } } = .next t) := by
  obtain ⟨t, h⟩ := next_of_isSome
    (o := cycle prm { waiting with env := { waiting.env with host := [.waitIdle] } }) (by decide)
  obtain ⟨u, g⟩ := next_of_isSome
    (o := cycle prm { State.reset with env := { Env.start with host := [.waitIdle] } }) (by decide)
  exact ⟨⟨t, by decide, h⟩, ⟨u, rfl, g⟩⟩

/-- The ready wait with `tmo` = 1 and `tmo` = 2; a step that ends the command by each of the two primitives; and
a host write while a command runs. -/
theorem witness_ReadyWaitPollsThenCounts :
    (waiting.st = .rw ∧ waiting.tmo ≠ 1#16 ∧ ({ waiting with tmo := 1#16 }).st = .rw) ∧
    (∃ u, ({ waiting with tmo := 1#16 }).st ≠ .idle ∧
      seqStep prm true true { waiting with tmo := 1#16 } = .next u ∧
      u.st = .idle) ∧
    (∃ u, (lowPhase 24#5 1).st ≠ .idle ∧ seqStep prm true true (lowPhase 24#5 1) = .next u ∧
      u.st = .idle) ∧
    ∃ u, waiting.st ≠ .idle ∧ hostPart (.write idxCmd 1#32) waiting = .next u :=
  ⟨by decide, ⟨_, by decide, rfl, rfl⟩, ⟨_, by decide, rfl, rfl⟩, ⟨_, by decide, rfl⟩⟩

/-- The last two cycles of a high phase, in pulses 0, 23 and 24. -/
theorem witness_HighPhaseSamplesInItsLastCycle :
    (highPhase 0#5 2).st = .hi ∧ 1 < (highPhase 0#5 2).c ∧ (highPhase 23#5 1).c ≤ 1 ∧
    (highPhase 23#5 1).st = .hi ∧ 0 + (highPhase 23#5 1).p.toNat = 23 ∧ (highPhase 24#5 1).c ≤ 1 := by
  decide

/-- The last two cycles of a low phase, in pulses 23 and 24. -/
theorem witness_LowPhaseEndsThePulse :
    (lowPhase 0#5 2).st = .lo ∧ 1 < (lowPhase 0#5 2).c ∧ (lowPhase 23#5 1).c ≤ 1 ∧
    (lowPhase 23#5 1).p.toNat < 24 ∧ (lowPhase 24#5 1).c ≤ 1 ∧ 24 ≤ (lowPhase 24#5 1).p.toNat := by
  decide

/-- The last transaction but one of 255, and the last. -/
theorem witness_TransactionsAccumulate :
    ({ State.reset with n := 255#8, k := 253#8 }).k.toNat + 1 < (255#8).toNat ∧
    (255#8).toNat ≤ ({ State.reset with n := 255#8, k := 254#8 }).k.toNat + 1 ∧ 255#8 ≠ 0#8 := by decide

theorem witness_BurstsEndByStage :
    ∀ g ∈ [Stage.raws, .avg, .dc, .burp, .burn, .warm, .setp, .setn],
      ({ State.reset with stage := g }).stage = g := by decide

/-- `dly` = 1 and `dly` = 0. -/
theorem witness_DelaysCountTicks :
    (delaying .warm 1#16).st = .delay ∧ (delaying .warm 1#16).dly ≠ 0#16 ∧
    (delaying .warm 0#16).dly = 0#16 := by decide

theorem witness_DelaysEndByStage :
    ∀ g ∈ [Stage.warm, .setp, .setn],
      (delaying g 0#16).st = .delay ∧ (delaying g 0#16).dly = 0#16 ∧ (delaying g 0#16).stage = g := by
  decide

/-- X4 (odd, negative) and X6's neighbour (even, positive). -/
theorem witness_AcCombinationIsTheFloor :
    (((100#24).toNat : Int) - (301#24).toNat) % 2 = 1 ∧
    (((0xFFFFFE#24).toNat : Int) - (0#24).toNat) % 2 = 0 := by decide

theorem witness_DcCombinationIsTheMean : (0x00FFFFFF#32).toNat < 2 ^ 24 ∧ (0#32).toNat < 2 ^ 24 := by
  decide

/-- The last transaction of AVERAGE 255 with every sample so far at its greatest. -/
def fullest : State :=
  { lowPhase 24#5 1 with stage := .avg, op := 2#4, n := 255#8, k := 254#8, acc := 0xFDFFFF02#32 }

theorem witness_AccumulatorNeverWraps : Inv prm fullest ∧ bursting fullest = true :=
  ⟨⟨⟨by decide, by decide, by decide, by decide, by decide, by decide, by decide,
      fun _ _ h => (by cases h), by decide⟩,
    ⟨by decide, by decide, by decide, by decide, by decide, by decide, by decide⟩,
    ⟨by decide, by decide, by decide, by decide, fun h => absurd h (by decide), by decide⟩⟩, rfl⟩

/-- The state at reset with a READ_RAW written in the coming cycle. -/
def launching : State := hostDoes (writePins idxCmd 1#32) (atReset [true] [false])

/-- The invariant with the block's own parameters, whose values are unknown. -/
theorem witness_EveryStepKeepsTheInvariant_step :
    ∃ s t, Inv Config.params s ∧ step s = .next t := by
  obtain ⟨t, h⟩ := next_of_isSome (o := step launching) (by decide)
  exact ⟨launching, t,
    ⟨⟨by decide, by decide, by decide, by decide, by decide, by decide, by decide,
        fun h => absurd rfl h, by decide⟩,
      ⟨by decide, by decide, fun h => absurd h (by decide), fun h => absurd h (by decide), by decide, by decide, by decide⟩,
      ⟨by decide, by decide, by decide, by decide, fun h => absurd h (by decide), by decide⟩⟩, h⟩

theorem witness_EveryStepKeepsTheInvariant :
    ∃ t, Inv prm fullest ∧ cycle prm fullest = .next t := by
  obtain ⟨t, h⟩ := next_of_isSome (o := cycle prm fullest) (by decide)
  exact ⟨t, witness_AccumulatorNeverWraps.1, h⟩

theorem witness_GoodStatesAlwaysStep :
    Inv prm fullest ∧ resolve prm (hostPins fullest).access = .ok .none :=
  ⟨witness_AccumulatorNeverWraps.1, rfl⟩

/-- RESULT at the greatest value of R176. -/
theorem witness_ValidResultsAreNeverTheSentinel :
    ∃ s, Inv prm s ∧ s.valid = true :=
  ⟨{ State.reset with valid := true, result := 0x00FFFFFF#32 },
    ⟨⟨by decide, by decide, by decide, by decide, by decide, by decide, by decide,
        fun h => absurd rfl h, by decide⟩,
      ⟨by decide, by decide, by decide, by decide, by decide, by decide, by decide⟩,
      ⟨by decide, by decide, by decide, by decide,
        fun _ => ⟨rfl, rfl, show (0x00FFFFFF#32).toNat < 2 ^ 24 by decide⟩, by decide⟩⟩, rfl⟩

/-- One host resets nothing and does nothing, the other writes CMD and a configuration register. -/
theorem witness_HostCannotDisturbARunningCommand :
    ∃ (h₁ h₂ : List HostItem) (t : State),
      Calm prm { waiting with drop := false, env := { waiting.env with host := h₁ } } ∧
      Calm prm { waiting with drop := true, env := { waiting.env with host := h₂ } } ∧
      (∀ j < 1, ∀ u,
        cycles prm j { waiting with drop := false, env := { waiting.env with host := h₁ } } = .next u →
          u.st ≠ .idle) ∧
      cycles prm 1 { waiting with drop := false, env := { waiting.env with host := h₁ } } = .next t := by
  obtain ⟨t, h⟩ := next_of_isSome
    (o := cycles prm 1 { waiting with drop := false, env := { waiting.env with host := [] } }) (by decide)
  refine ⟨[], [.pins (writePins idxCmd 5#32), .pins (writePins idxTimeout 0#32)], t, ?_, ?_, ?_, h⟩
  · intro x hx
    cases hx
  · show ∀ x ∈ [HostItem.pins (writePins idxCmd 5#32), .pins (writePins idxTimeout 0#32)],
      calmItem prm x = true
    decide
  · intro j hj u hu
    obtain rfl : j = 0 := by omega
    cases hu
    decide

theorem witness_OutcomeHoldsUntilTheNextCommand :
    ∃ (s t : State), s.st = .idle ∧
      (∀ q, HostItem.pins q ∈ s.env.host →
        q.rst = false ∧ ∀ w, resolve prm q.access ≠ .ok (.write idxCmd w)) ∧
      cycles prm 2 s = .next t := by
  obtain ⟨t, h⟩ := next_of_isSome (o := cycles prm 2
    (hostDoes (writePins idxTimeout 7#32) (atReset [true, true] [true, true]))) (by decide)
  refine ⟨_, t, rfl, ?_, h⟩
  intro q hq
  obtain rfl : q = writePins idxTimeout 7#32 := by simpa [hostDoes, atReset, Env.start] using hq
  refine ⟨rfl, fun w hw => ?_⟩
  cases hw

/-- A cycle for each of the five cases. -/
theorem witness_DropIsSetAndClearedAsStated :
    ((hostPins (hostDoes ⟨true, .port true false 0#4 0#32⟩ waiting)).rst = true ∧
      ∃ t, cycle prm (hostDoes ⟨true, .port true false 0#4 0#32⟩ waiting) = .next t) ∧
    (∃ t, cycle prm (hostDoes (writePins 0#4 0#32) (atReset [] [])) = .next t) ∧
    (∃ t, cycle prm (hostDoes (writePins 6#4 0#32) (atReset [] [])) = .next t) ∧
    (∃ t, cycle prm (hostDoes (writePins 8#4 0#32) waiting) = .next t) ∧
    (∃ t, cycle prm (hostDoes (writePins 9#4 0#32) waiting) = .next t) :=
  ⟨⟨rfl, next_of_isSome (by decide)⟩, next_of_isSome (by decide), next_of_isSome (by decide),
    next_of_isSome (by decide), next_of_isSome (by decide)⟩

/-- An accepted write, a dropped one, and an idle cycle without a CMD write. -/
theorem witness_OpRecordsTheLastWordTaken :
    (∃ t, (hostPins launching).rst = false ∧ cycle prm launching = .next t) ∧
    (∃ t, waiting.st ≠ .idle ∧ cycle prm (hostDoes (writePins 0#4 4#32) waiting) = .next t) ∧
    (∃ t, cycle prm (hostDoes (writePins 6#4 4#32) (atReset [] [])) = .next t) := by
  obtain ⟨t, h⟩ := next_of_isSome (o := cycle prm launching) (by decide)
  obtain ⟨u, g⟩ := next_of_isSome (o := cycle prm (hostDoes (writePins 0#4 4#32) waiting)) (by decide)
  exact ⟨⟨t, rfl, h⟩, ⟨u, by decide, g⟩, next_of_isSome (by decide)⟩

/-- SETPH.POS while idle, and the end of the Positive burst. -/
theorem witness_PhaseChangesOnlyByItsCommands :
    ((nextState (cycle prm (hostDoes (writePins 0#4 0x14#32) (atReset [] [])))).map fun t => t.phase) =
      some .positive ∧
    ((nextState (cycle prm { lowPhase 24#5 1 with stage := .burp, phase := .positive })).map
      fun t => t.phase) = some .negative := by decide

theorem witness_ConfigurationIsFrozenWhileBusy :
    ∃ t, waiting.st ≠ .idle ∧ (hostPins (hostDoes (writePins 6#4 0#32) waiting)).rst = false ∧
      cycle prm (hostDoes (writePins 6#4 0#32) waiting) = .next t := by
  obtain ⟨t, h⟩ := next_of_isSome (o := cycle prm (hostDoes (writePins 6#4 0#32) waiting)) (by decide)
  exact ⟨t, by decide, rfl, h⟩

/-! #### Runs -/

/-- A conforming chip with H = L = 1: high while it converts, low when ready, then its word, most significant
bit first, one bit in each high cycle; high in the low cycles and in pulse 24. -/
def chip (wait : Nat) (w : Sample) (tick : List Bool) : Transfer where
  wait := wait
  word := w
  dout := List.replicate wait true ++
    (false :: ((List.range 24).flatMap fun p => [w.getLsbD (23 - p), true]) ++ [true, true])
  tick := tick ++ List.replicate (wait + 51 - tick.length) false

/-- R123's example word, ready at once. -/
theorem chip_ok : TransferOk prm 3000 (chip 0 0x123456#24 []) :=
  ⟨⟨by decide, by decide, by decide, by decide⟩, by decide, by decide⟩

/-- T12: timeout 2, ready in the sixth cycle, one tick before it and one in it. -/
theorem chip_ok_late :
    TransferOk prm 2 (chip 5 0x800000#24 [false, true, false, false, false, true]) :=
  ⟨⟨by decide, by decide, by decide, by decide⟩, by decide, by decide⟩

/-- The ready wait of transaction `k` of an AVERAGE 2, before that transfer. -/
def transferring (k : BitVec 8) : State :=
  { atReset (chip 5 0x800000#24 [false, true, false, false, false, true]).dout
      (chip 5 0x800000#24 [false, true, false, false, false, true]).tick with
    st := .rw, stage := .avg, op := 2#4, n := 2#8, k := k, timeoutMs := 2#16, tmo := 2#16 }

/-- Both clauses: the first and the last transaction of two. -/
theorem witness_TransactionsShiftTheChipWord :
    (Calm prm (transferring 0#8) ∧ Calm prm (transferring 1#8)) ∧ (transferring 0#8).st = .rw ∧
    stageHasBurst (transferring 0#8).stage = true ∧ (transferring 0#8).n ≠ 0#8 ∧
    TransferOk prm (transferring 0#8).tmo.toNat
      (chip 5 0x800000#24 [false, true, false, false, false, true]) ∧
    (transferring 0#8).env.dout =
      (chip 5 0x800000#24 [false, true, false, false, false, true]).dout ++ [] ∧
    (transferring 0#8).env.tick =
      (chip 5 0x800000#24 [false, true, false, false, false, true]).tick ++ [] ∧
    (transferring 0#8).k.toNat + 1 < (transferring 0#8).n.toNat ∧
    (transferring 1#8).n.toNat ≤ (transferring 1#8).k.toNat + 1 ∧ (transferring 1#8).stage = .avg :=
  ⟨⟨calm_of_nil rfl, calm_of_nil rfl⟩, rfl, rfl, by decide, chip_ok_late, by decide, by decide,
    by decide, by decide, rfl⟩

theorem witness_SckHasTwentyFivePulses :
    Calm prm (transferring 0#8) ∧ (transferring 0#8).st = .rw ∧ (transferring 0#8).sck = false ∧
    stageHasBurst (transferring 0#8).stage = true ∧ (transferring 0#8).n ≠ 0#8 ∧
    TransferOk prm (transferring 0#8).tmo.toNat
      (chip 5 0x800000#24 [false, true, false, false, false, true]) ∧
    (transferring 0#8).env.dout =
      (chip 5 0x800000#24 [false, true, false, false, false, true]).dout ++ [] ∧
    (transferring 0#8).env.tick =
      (chip 5 0x800000#24 [false, true, false, false, false, true]).tick ++ [] :=
  ⟨calm_of_nil rfl, rfl, rfl, rfl, by decide, chip_ok_late, by decide, by decide⟩

/-- T10, in a burst of SAMPLE_AC, and T13, in the burst of READ_RAW. -/
theorem witness_TimeoutEndsTheCommand :
    (∃ s : State, Calm prm s ∧ s.st = .rw ∧ s.stage = .burn ∧ ([] : List Bool).count true + 1 = s.tmo.toNat ∧
      s.env.dout = List.replicate 1 true ++ [] ∧ s.env.tick = [] ++ true :: []) ∧
    (∃ s : State, Calm prm s ∧ s.st = .rw ∧ s.stage = .raws ∧
      [false, true, false, false, false].count true + 1 = s.tmo.toNat ∧
      s.env.dout = List.replicate 6 true ++ [] ∧
      s.env.tick = [false, true, false, false, false] ++ true :: []) :=
  ⟨⟨{ atReset [true] [true] with st := .rw, stage := .burn, n := 1#8, tmo := 1#16 }, calm_of_nil rfl,
      by decide⟩,
    ⟨{ atReset (List.replicate 6 true) [false, true, false, false, false, true] with
      st := .rw, n := 1#8, tmo := 2#16 }, calm_of_nil rfl, by decide⟩⟩

/-- T14 and W4, two cycles of each. -/
theorem witness_WithoutTicksAWaitNeverEnds :
    (Calm prm waiting ∧ waiting.env.tick = List.replicate 2 false ++ [] ∧ waiting.st = .rw ∧
      waiting.env.dout = List.replicate 2 true ++ []) ∧
    (Calm prm (delaying .warm 10#16) ∧ (delaying .warm 10#16).env.tick = List.replicate 1 false ++ [] ∧
      (delaying .warm 10#16).st = .delay ∧ (delaying .warm 10#16).dly ≠ 0#16) :=
  ⟨⟨calm_of_nil rfl, by decide⟩, ⟨calm_of_nil rfl, by decide⟩⟩

/-- A timebase that ticks in every cycle after the listed ones is fair. -/
theorem fair_of_prm (s : State) : FairTimebase prm s := fun m =>
  ⟨m + s.env.tick.length, Nat.le_add_right .., by simp [tickAt, prm]⟩

/-- A ready wait, a delay of each stage, and a state that meets the invariant while a burst runs. -/
theorem witness_FairTicksEndEveryWait :
    (Calm prm waiting ∧ FairTimebase prm waiting ∧ waiting.st = .rw) ∧
    (∀ g ∈ [Stage.warm, .setp, .setn], Calm prm (delaying g 10#16) ∧
      FairTimebase prm (delaying g 10#16) ∧ (delaying g 10#16).st = .delay ∧
      (delaying g 10#16).stage = g) ∧
    Calm prm fullest ∧ FairTimebase prm fullest ∧ Inv prm fullest :=
  ⟨⟨calm_of_nil rfl, fair_of_prm _, rfl⟩,
    fun _ _ => ⟨calm_of_nil rfl, fair_of_prm _, rfl, rfl⟩,
    calm_of_nil rfl, fair_of_prm _, witness_AccumulatorNeverWraps.1⟩

/-- W1 and W3. -/
theorem witness_DelaysLastTheirTicks :
    (∃ u, Calm prm (delaying .setp 0#16) ∧ (delaying .setp 0#16).st = .delay ∧
      DelayTicks (delaying .setp 0#16).dly.toNat [false] ∧
      (delaying .setp 0#16).env.tick = [false] ++ [] ∧
      delayDone { delaying .setp 0#16 with dly := 0#16 } = .next u) ∧
    DelayTicks 2 [false, true, false, false, true, true] := by
  obtain ⟨u, h⟩ := next_of_isSome (o := delayDone { delaying .setp 0#16 with dly := 0#16 }) (by decide)
  exact ⟨⟨u, calm_of_nil rfl, rfl, ⟨by decide, by decide, by decide⟩, by decide, h⟩,
    ⟨by decide, by decide, by decide⟩⟩

/-- The reset state with `w` written to CMD in the coming cycle and these levels in the cycles after it. -/
def launched (w : Word) (dout tick : List Bool) : State :=
  hostDoes (writePins idxCmd w) (atReset (true :: dout) (false :: tick))

theorem launched_ok (w : Word) (dout tick : List Bool) :
    Launched prm (launched w dout tick) w dout tick :=
  ⟨rfl, ⟨[], rfl, fun _ h => (by cases h)⟩, ⟨true, [], by simp [launched, hostDoes, atReset]⟩,
    ⟨false, [], by simp [launched, hostDoes, atReset]⟩⟩

theorem witness_ReadRawReturnsTheSample :
    ∃ s x, Launched prm s 0x00000001#32 x.dout x.tick ∧ TransferOk prm s.timeoutMs.toNat x :=
  ⟨launched 1#32 (chip 0 0x123456#24 []).dout (chip 0 0x123456#24 []).tick, chip 0 0x123456#24 [],
    launched_ok _ _ _, chip_ok⟩

theorem witness_AverageReturnsTheFloorMean :
    ∃ s c xs y, (xs ++ [y]).length = (c : BitVec 8).toNat ∧
      Launched prm s (0x00000002#32 ||| (c.setWidth 32 <<< 8))
        (burstDout (xs ++ [y])) (burstTick (xs ++ [y])) ∧
      ∀ x ∈ xs ++ [y], TransferOk prm s.timeoutMs.toNat x :=
  ⟨launched 0x00000202#32 (burstDout [chip 0 0x123456#24 [], chip 0 0x123456#24 []])
      (burstTick [chip 0 0x123456#24 [], chip 0 0x123456#24 []]),
    2#8, [chip 0 0x123456#24 []], chip 0 0x123456#24 [], by decide, launched_ok _ _ _, by
      intro x hx
      obtain rfl : x = chip 0 0x123456#24 [] := by simpa using hx
      exact chip_ok⟩

theorem witness_AverageOfAConstantIsTheConstant :
    ∃ s c xs w, xs.length = (c : BitVec 8).toNat ∧ c ≠ 0#8 ∧ (∀ x ∈ xs, x.word = w) ∧
      Launched prm s (0x00000002#32 ||| (c.setWidth 32 <<< 8)) (burstDout xs) (burstTick xs) ∧
      ∀ x ∈ xs, TransferOk prm s.timeoutMs.toNat x :=
  ⟨launched 0x00000102#32 (burstDout [chip 0 0x123456#24 []]) (burstTick [chip 0 0x123456#24 []]),
    1#8, [chip 0 0x123456#24 []], 0x123456#24, by decide, by decide, by decide, launched_ok _ _ _, by
      intro x hx
      obtain rfl : x = chip 0 0x123456#24 [] := by simpa using hx
      exact chip_ok⟩

theorem witness_SampleDcReturnsTheMean :
    ∃ s c xs y, (xs ++ [y]).length = (c : BitVec 8).toNat ∧
      Launched prm s (0x00000003#32 ||| (c.setWidth 32 <<< 8))
        (burstDout (xs ++ [y])) (burstTick (xs ++ [y])) ∧
      ∀ x ∈ xs ++ [y], TransferOk prm s.timeoutMs.toNat x :=
  ⟨launched 0x00000103#32 (burstDout [chip 0 0x123456#24 []]) (burstTick [chip 0 0x123456#24 []]),
    1#8, [], chip 0 0x123456#24 [], by decide, launched_ok _ _ _, by
      intro x hx
      obtain rfl : x = chip 0 0x123456#24 [] := by simpa using hx
      exact chip_ok⟩

/-- A SAMPLE_AC 1 with a warm-up of one tick and settle delays of none. -/
def schedule : AcSchedule where
  warmDout := [true, true]
  warmTick := [true, false]
  posDout := [true]
  posTick := [false]
  pos := [chip 0 0x123456#24 []]
  negDout := [true]
  negTick := [true]
  neg := [chip 0 0x123456#24 []]

theorem witness_SampleAcReturnsTheHalfDifference :
    ∃ s c a, Launched prm s (0x00000013#32 ||| ((c : BitVec 8).setWidth 32 <<< 8)) (acDout a) (acTick a) ∧
      AcScheduleOk prm s c a := by
  refine ⟨{ launched 0x00000113#32 (acDout schedule) (acTick schedule) with
    warmupMs := 1#16, settleMs := 0#16 }, 1#8, schedule, ?_, ?_⟩
  · obtain ⟨h1, h2, h3, h4⟩ := launched_ok 0x00000113#32 (acDout schedule) (acTick schedule)
    exact ⟨h1, h2, h3, h4⟩
  · have hx : ∀ x ∈ [chip 0 0x123456#24 []], TransferOk prm 3000 x := by
      intro x hx
      obtain rfl : x = chip 0 0x123456#24 [] := by simpa using hx
      exact chip_ok
    exact ⟨⟨by decide, by decide, by decide⟩, rfl, ⟨by decide, by decide, by decide⟩, rfl,
      ⟨by decide, by decide, by decide⟩, rfl, by decide, rfl, rfl, hx, hx⟩

theorem witness_LinesDuringSampleAc :
    ∃ s c a, Launched prm s (0x00000013#32 ||| ((c : BitVec 8).setWidth 32 <<< 8)) (acDout a) (acTick a) ∧
      AcScheduleOk prm s c a :=
  witness_SampleAcReturnsTheHalfDifference

end Sys2Proof.Tests
end

section
/-! The invariant by control state: idle, in a delay, in a burst (spec/10_state.md). -/

namespace Sys2Proof.Machine

/-- The data registers and the pulse counter are in their ranges, in every control state (R31 to R33, R42). -/
structure RegInv (s : State) : Prop where
  p_le : s.p.toNat ≤ 24
  raw_range : s.raw.toNat < 2 ^ 24
  valp_range : s.valp.toNat < 2 ^ 24
  valn_range : s.valn.toNat < 2 ^ 24

/-- What holds of a running command whatever its sequencer is doing (R29, R41, R92, R112, R123,
R165 to R171). -/
structure CommandInv (s : State) : Prop where
  count_pos : s.n ≠ 0#8
  raws_single : s.stage = .raws → s.n = 1#8
  timeout_pos : s.timeoutMs ≠ 0#16
  op_stage : s.op = stageOp s.stage
  phase_stage : ∀ f, stagePhase s.stage = some f → s.phase = f
  valid_clear : s.valid = false
  err_none : s.err = .none

/-- The outcome the last command left while the block is idle (R24, R176, R192). -/
structure IdleInv (s : State) : Prop where
  sck_low : s.sck = false
  valid_result : s.valid = true → s.err = .none ∧ resultInRange s.stage s.result
  err_sentinel : s.err ≠ .none → s.valid = false ∧ s.result = sentinel

/-- A delay runs in a stage that has one, with its countdown in range (R38, R165, R167, R169). -/
structure DelayInv (s : State) : Prop where
  sck_low : s.sck = false
  stage : stageHasBurst s.stage = false
  dly_warm : s.stage = .warm → s.dly.toNat ≤ s.warmupMs.toNat
  dly_settle : s.stage ≠ .warm → s.dly.toNat ≤ s.settleMs.toNat

/-- A burst runs in a stage that has one, and its accumulator holds at most `k` samples (R41, R142, R144). -/
structure BurstInv (s : State) : Prop where
  stage : stageHasBurst s.stage = true
  k_lt : s.k.toNat < s.n.toNat
  acc_range : s.acc.toNat ≤ s.k.toNat * (2 ^ 24 - 1)

/-- The clock line and the countdowns of a transaction (R42, R45, R112). -/
structure ClockInv (prm : Params) (s : State) : Prop where
  sck_high : s.sck = true ↔ s.st = .hi
  c_high : s.st = .hi → 1 ≤ s.c ∧ s.c ≤ prm.H
  c_low : s.st = .lo → 1 ≤ s.c ∧ s.c ≤ prm.L
  tmo_range : s.st = .rw → s.tmo ≠ 0#16 ∧ s.tmo.toNat ≤ s.timeoutMs.toNat

section
variable {prm : Params} {s : State}

theorem Inv.regs (h : Inv prm s) : RegInv s :=
  ⟨h.counters.p_le, h.data.raw_range, h.data.valp_range, h.data.valn_range⟩

theorem Inv.command (h : Inv prm s) (hb : s.st ≠ .idle) : CommandInv s where
  count_pos := h.control.count_pos hb
  raws_single := h.control.raws_single hb
  timeout_pos := h.control.timeout_pos hb
  op_stage := h.control.op_stage hb
  phase_stage := h.control.phase_stage hb
  valid_clear := (h.control.busy_flags hb).1
  err_none := (h.control.busy_flags hb).2

theorem Inv.sck_low (h : Inv prm s) (hs : s.st ≠ .hi) : s.sck = false :=
  Bool.eq_false_iff.mpr (mt h.counters.sck_high.mp hs)

/-- The invariant of an idle block. -/
theorem inv_idle_iff (hs : s.st = .idle) : Inv prm s ↔ RegInv s ∧ IdleInv s := by
  constructor
  · intro h
    exact ⟨h.regs, h.sck_low (by simp [hs]), fun hv => (h.data.valid_result hv).2, h.data.err_sentinel⟩
  · rintro ⟨hr, hi⟩
    have hb : bursting s = false := by simp [bursting, hs]
    exact ⟨by constructor <;> simp [hs, hb],
      by constructor <;> simp [hs, hi.sck_low, hr.p_le],
      { hr, hi with
        acc_range := by simp [hb]
        valid_result := fun hv => ⟨hs, hi.valid_result hv⟩ }⟩

/-- The invariant of a block in a delay. -/
theorem inv_delay_iff (hs : s.st = .delay) :
    Inv prm s ↔ RegInv s ∧ CommandInv s ∧ DelayInv s := by
  constructor
  · intro h
    exact ⟨h.regs, h.command (by simp [hs]), h.sck_low (by simp [hs]), h.control.delay_stage hs,
      h.counters.dly_warm hs, h.counters.dly_settle hs⟩
  · rintro ⟨hr, hc, hd⟩
    have hb : bursting s = false := by simp [bursting, hs]
    exact ⟨⟨fun _ => hd.stage, by simp [hb], fun _ => hc.count_pos, by simp [hb],
        fun _ => hc.raws_single, fun _ => hc.timeout_pos, fun _ => hc.op_stage, fun _ => hc.phase_stage,
        fun _ => ⟨hc.valid_clear, hc.err_none⟩⟩,
      ⟨by simp [hs, hd.sck_low], hr.p_le, by simp [hs], by simp [hs], by simp [hs],
        fun _ => hd.dly_warm, fun _ => hd.dly_settle⟩,
      { hr with
        acc_range := by simp [hb]
        valid_result := by simp [hc.valid_clear]
        err_sentinel := by simp [hc.err_none] }⟩

/-- The invariant of a block in a transaction of a burst. -/
theorem inv_burst_iff (hs : bursting s = true) :
    Inv prm s ↔ RegInv s ∧ CommandInv s ∧ BurstInv s ∧ ClockInv prm s := by
  have hi : s.st ≠ .idle := by rintro h; simp [bursting, h] at hs
  have hd : s.st ≠ .delay := by rintro h; simp [bursting, h] at hs
  constructor
  · intro h
    exact ⟨h.regs, h.command hi,
      ⟨h.control.burst_stage hs, h.control.k_lt hs, h.data.acc_range hs⟩, { h.counters with }⟩
  · rintro ⟨hr, hc, hb, hk⟩
    exact ⟨⟨by simp [hd], fun _ => hb.stage, fun _ => hc.count_pos, fun _ => hb.k_lt,
        fun _ => hc.raws_single, fun _ => hc.timeout_pos, fun _ => hc.op_stage, fun _ => hc.phase_stage,
        fun _ => ⟨hc.valid_clear, hc.err_none⟩⟩,
      { hr, hk with
        dly_warm := by simp [hd]
        dly_settle := by simp [hd] },
      { hr with
        acc_range := fun _ => hb.acc_range
        valid_result := by simp [hc.valid_clear]
        err_sentinel := by simp [hc.err_none] }⟩

end
end Sys2Proof.Machine
end

section
/-! The arithmetic of the mean and of the two combinations, and the invariant along the sequencer's step
(spec/40_command.md R93; spec/42_averaging.md; spec/43_excitation.md). -/

namespace Sys2Proof.Machine

/-- A sample added to an accumulator of `k < 255` samples does not wrap (R144). -/
theorem acc_add_sample_le {a : Word} {k : Nat} (x : Sample) (hk : k < 255)
    (ha : a.toNat ≤ k * (2 ^ 24 - 1)) : (a + zext32 x).toNat ≤ (k + 1) * (2 ^ 24 - 1) := by
  have hx := x.isLt
  rw [BitVec.toNat_add, toNat_zext32, Nat.mod_eq_of_lt (by omega)]
  omega

/-- The mean of `n` samples is a sample (R143). -/
theorem floorMean_lt {a : Word} {n : BitVec 8} (hn : n ≠ 0#8)
    (ha : a.toNat ≤ n.toNat * (2 ^ 24 - 1)) : (floorMean a n).toNat < 2 ^ 24 := by
  have hpos : 0 < n.toNat := by bv_omega
  rw [floorMean, BitVec.toNat_udiv, BitVec.toNat_setWidth, Nat.mod_eq_of_lt (by omega),
    Nat.div_lt_iff_lt_mul hpos]
  omega

theorem toInt_of_sample {v : Word} (hv : v.toNat < 2 ^ 24) : v.toInt = v.toNat :=
  BitVec.toInt_eq_toNat_of_lt (by omega)

/-- The DC combination returns the mean unchanged (R175). -/
theorem combineDc_eq {m : Word} (hm : m.toNat < 2 ^ 24) : combineDc m = m := by
  have hs : (m <<< 1).toNat = 2 * m.toNat := by
    rw [BitVec.toNat_shiftLeft, Nat.shiftLeft_eq, Nat.mod_eq_of_lt (by omega)]
    omega
  apply BitVec.eq_of_toInt_eq
  rw [combineDc, asr32, BitVec.sub_zero, BitVec.toInt_sshiftRight,
    BitVec.toInt_eq_toNat_of_lt (x := m <<< 1) (by omega), hs, toInt_of_sample hm,
    Int.shiftRight_eq_div_pow]
  omega

/-- The AC combination is the floor of half the exact difference (R172). -/
theorem toInt_combineAc {m v : Word} (hm : m.toNat < 2 ^ 24) (hv : v.toNat < 2 ^ 24) :
    (combineAc m v).toInt = ((m.toNat : Int) - v.toNat) / 2 := by
  have hd : (m - v).toInt = (m.toNat : Int) - v.toNat := by
    rw [BitVec.toInt_sub, toInt_of_sample hm, toInt_of_sample hv]
    exact Int.bmod_eq_of_le (by omega) (by omega)
  rw [combineAc, asr32, BitVec.toInt_sshiftRight, hd, Int.shiftRight_eq_div_pow]
  rfl

/-- A RESULT in its command's range lies between the extremes of R176. -/
theorem toInt_of_resultInRange {g : Stage} {v : Word} (h : resultInRange g v) :
    -(2 ^ 23 : Int) ≤ v.toInt ∧ v.toInt ≤ 2 ^ 24 - 1 := by
  have unsigned : v.toNat < 2 ^ 24 → -(2 ^ 23 : Int) ≤ v.toInt ∧ v.toInt ≤ 2 ^ 24 - 1 := by
    intro hv
    rw [toInt_of_sample hv]
    omega
  cases g with
  | raws => exact unsigned h
  | avg => exact unsigned h
  | dc => exact unsigned h
  | burn => exact ⟨h.1, h.2.trans (by decide)⟩
  | warm => exact h.elim
  | setp => exact h.elim
  | burp => exact h.elim
  | setn => exact h.elim

section
variable {prm : Params} {s u : State}

/-- The invariant speaks neither of DROP nor of the environment. -/
theorem inv_setOuter (b : Bool) (e : Env) (h : Inv prm s) : Inv prm (setOuter b e s) :=
  ⟨{ h.control with }, { h.counters with }, { h.data with }⟩

theorem inv_endCycle (r : Word) (b : Bool) (h : Inv prm s) : Inv prm (endCycle r b s) :=
  inv_setOuter s.drop (envNext r b s) h

theorem inv_reset (prm : Params) : Inv prm State.reset :=
  (inv_idle_iff rfl).mpr
    ⟨by constructor <;> decide, rfl, fun h => absurd h (by decide), fun h => absurd rfl h⟩

theorem inv_resetBlock (prm : Params) (s : State) : Inv prm (resetBlock s) :=
  inv_setOuter false s.env (inv_reset prm)

/-! What starts and ends a command. -/

theorem inv_burstStart {c : BitVec 8} (hr : RegInv s) (hc : CommandInv { s with n := c })
    (hg : stageHasBurst s.stage = true) (hk : s.sck = false) : Inv prm (burstStart c s) :=
  (inv_burst_iff rfl).mpr ⟨{ hr with }, { hc with },
    { stage := hg
      k_lt := by
        have hn : c ≠ 0#8 := hc.count_pos
        exact show 0 < c.toNat by bv_omega
      acc_range := Nat.zero_le _ },
    { sck_high := by simp [hk]
      c_high := by simp
      c_low := by simp
      tmo_range := fun _ => ⟨hc.timeout_pos, Nat.le_refl _⟩ }⟩

theorem inv_delayStart {g : Stage} {d : BitVec 16} (hr : RegInv s)
    (hc : CommandInv { s with stage := g }) (hg : stageHasBurst g = false) (hk : s.sck = false)
    (hw : g = .warm → d = s.warmupMs) (hd : g ≠ .warm → d = s.settleMs) :
    Inv prm (delayStart g d s) :=
  (inv_delay_iff rfl).mpr ⟨{ hr with }, { hc with }, hk, hg,
    fun h => (congrArg BitVec.toNat (hw h)).le, fun h => (congrArg BitVec.toNat (hd h)).le⟩

theorem inv_completeOk {v : Word} (hr : RegInv s) (hk : s.sck = false)
    (hv : resultInRange s.stage v) : Inv prm (completeOk v s) :=
  (inv_idle_iff rfl).mpr ⟨{ hr with }, hk, fun _ => ⟨rfl, hv⟩, fun h => absurd rfl h⟩

theorem inv_completeErr (e : Err) (hr : RegInv s) (hk : s.sck = false) :
    Inv prm (completeErr e s) :=
  (inv_idle_iff rfl).mpr ⟨{ hr with }, hk, fun h => (by cases h), fun _ => ⟨rfl, rfl⟩⟩

/-- A command goes on in another stage of its sequence with the same phase (R167, R168, R170). -/
theorem CommandInv.goOn {f g : Stage} (h : CommandInv s) (hs : s.stage = f) (hr : g ≠ .raws)
    (ho : stageOp f = stageOp g) (hf : stagePhase f = stagePhase g) :
    CommandInv { s with stage := g } :=
  { h with
    raws_single := fun hg => absurd hg hr
    op_stage := by rw [h.op_stage, hs, ho]
    phase_stage := fun p hp => h.phase_stage p (by rw [hs, hf, hp]) }

/-- The end of a delay keeps the invariant (R167, R168, R170). -/
theorem delayDone_inv (hr : RegInv s) (hc : CommandInv s) (hk : s.sck = false)
    (h : delayDone s = .next u) : Inv prm u := by
  cases hg : s.stage <;> simp only [delayDone, hg] at h <;> cases h
  case warm =>
    exact inv_delayStart hr (hc.goOn hg (by decide) rfl rfl) rfl hk (by simp) (fun _ => rfl)
  case setp =>
    exact inv_burstStart { hr with } (hc.goOn (g := .burp) hg (by decide) rfl rfl) rfl hk
  case setn =>
    exact inv_burstStart { hr with } (hc.goOn (g := .burn) hg (by decide) rfl rfl) rfl hk

/-- The end of the Positive burst keeps the invariant: the Negative phase settles (R169). -/
theorem inv_burpDone {m : Word} (hr : RegInv s) (hc : CommandInv s) (hk : s.sck = false)
    (hg : s.stage = .burp) (hm : m.toNat < 2 ^ 24) : Inv prm (burpDone m s) :=
  inv_delayStart (s := { s with valp := m, phase := .negative }) { hr with valp_range := hm }
    { hc with
      raws_single := by simp
      op_stage := hc.op_stage.trans (by rw [hg]; rfl)
      phase_stage := fun f hf => Option.some.inj hf }
    rfl hk (by simp) (fun _ => rfl)

/-- The end of the Negative burst keeps the invariant: RESULT is half the difference (R171, R176). -/
theorem inv_burnDone {m : Word} (hr : RegInv s) (hk : s.sck = false) (hg : s.stage = .burn)
    (hm : m.toNat < 2 ^ 24) : Inv prm (burnDone m s) := by
  refine inv_completeOk (s := { s with valn := m, phase := .off }) { hr with valn_range := hm } hk ?_
  have hv := hr.valp_range
  have hres := toInt_combineAc hm hv
  simp only [hg, resultInRange]
  omega

/-- The end of the burst of SAMPLE_DC keeps the invariant: RESULT is the mean (R174, R176). -/
theorem inv_dcDone {m : Word} (hr : RegInv s) (hk : s.sck = false) (hg : s.stage = .dc)
    (hm : m.toNat < 2 ^ 24) : Inv prm (dcDone m s) := by
  refine inv_completeOk (s := { s with valn := m, valp := 0#32 })
    { hr with valn_range := hm, valp_range := by simp } hk ?_
  simpa only [hg, resultInRange, combineDc_eq hm] using hm

/-- The end of a burst keeps the invariant (R142). -/
theorem burstDone_inv {m : Word} (hr : RegInv s) (hc : CommandInv s) (hk : s.sck = false)
    (hm : m.toNat < 2 ^ 24) (h : burstDone m s = .next u) : Inv prm u := by
  cases hg : s.stage <;> simp only [burstDone, hg] at h <;> cases h
  case raws => exact inv_completeOk hr hk (by simpa only [hg, resultInRange] using hm)
  case avg => exact inv_completeOk hr hk (by simpa only [hg, resultInRange] using hm)
  case dc => exact inv_dcDone hr hk hg hm
  case burp => exact inv_burpDone hr hc hk hg hm
  case burn => exact inv_burnDone hr hk hg hm

/-- The end of a transaction keeps the invariant: the accumulator holds one more sample (R121, R141, R144). -/
theorem transactionDone_inv {x : Sample} (hr : RegInv s) (hc : CommandInv s) (hb : BurstInv s)
    (hk : s.sck = false) (h : transactionDone x s = .next u) : Inv prm u := by
  have hlt := hb.k_lt
  have hacc := acc_add_sample_le x (show s.k.toNat < 255 by omega) hb.acc_range
  have hraw : (zext32 x).toNat < 2 ^ 24 := by simpa [toNat_zext32] using x.isLt
  by_cases hmore : s.k.toNat + 1 < s.n.toNat
  · have hk1 : (s.k + 1#8).toNat = s.k.toNat + 1 := by bv_omega
    rw [transactionDone_more hmore] at h
    cases h
    exact (inv_burst_iff rfl).mpr ⟨{ hr with raw_range := hraw }, { hc with },
      { stage := hb.stage
        k_lt := hk1.trans_lt hmore
        acc_range := by simpa [hk1] using hacc },
      { sck_high := by simp [hk]
        c_high := by simp
        c_low := by simp
        tmo_range := fun _ => ⟨hc.timeout_pos, Nat.le_refl _⟩ }⟩
  · rw [transactionDone_last hmore hc.count_pos] at h
    have hn : s.k.toNat + 1 = s.n.toNat := by omega
    exact burstDone_inv (s := { s with raw := zext32 x, acc := s.acc + zext32 x })
      { hr with raw_range := hraw } { hc with } hk
      (floorMean_lt hc.count_pos (hn ▸ hacc)) h

/-! The sequencer's step by control state (R93). -/

theorem delayStep_inv {t : Bool} (hs : s.st = .delay) (hi : Inv prm s)
    (h : delayStep t s = .next u) : Inv prm u := by
  obtain ⟨hr, hc, hd⟩ := (inv_delay_iff hs).mp hi
  simp only [delayStep] at h
  split_ifs at h with hz
  · exact delayDone_inv hr hc hd.sck_low h
  · cases h
    have hle : (s.dly - 1#16).toNat ≤ s.dly.toNat := by bv_omega
    exact (inv_delay_iff (s := { s with dly := s.dly - 1#16 }) hs).mpr ⟨{ hr with }, { hc with },
      { hd with
        dly_warm := fun hg => hle.trans (hd.dly_warm hg)
        dly_settle := fun hg => hle.trans (hd.dly_settle hg) }⟩
  · cases h
    exact hi

theorem rwStep_inv (d t : Bool) (hs : s.st = .rw) (hi : Inv prm s) :
    Inv prm (rwStep prm d t s) := by
  have hbs : bursting s = true := by simp [bursting, hs]
  obtain ⟨hr, hc, hb, hk⟩ := (inv_burst_iff hbs).mp hi
  have hsck := hi.sck_low (by simp [hs])
  simp only [rwStep]
  split_ifs with hd ht hz
  · exact (inv_burst_iff rfl).mpr ⟨{ hr with p_le := Nat.zero_le _ }, { hc with }, { hb with },
      ⟨by simp, fun _ => ⟨prm.H_pos, Nat.le_refl _⟩, by simp, by simp⟩⟩
  · exact inv_completeErr .timeout hr hsck
  · obtain ⟨hpos, hle⟩ := hk.tmo_range hs
    have htmo : s.tmo - 1#16 ≠ 0#16 ∧ (s.tmo - 1#16).toNat ≤ s.timeoutMs.toNat := by bv_omega
    exact (inv_burst_iff (s := { s with tmo := s.tmo - 1#16 }) hbs).mpr
      ⟨{ hr with }, { hc with }, { hb with },
      { hk with tmo_range := fun _ => htmo }⟩
  · exact hi

theorem hiStep_inv (d : Bool) (hs : s.st = .hi) (hi : Inv prm s) : Inv prm (hiStep prm d s) := by
  have hbs : bursting s = true := by simp [bursting, hs]
  obtain ⟨hr, hc, hb, hk⟩ := (inv_burst_iff hbs).mp hi
  simp only [hiStep]
  split_ifs with h1
  · have hle := (hk.c_high hs).2
    exact (inv_burst_iff (s := { s with c := s.c - 1 }) hbs).mpr
      ⟨{ hr with }, { hc with }, { hb with },
      { hk with
        c_high := fun _ => show 1 ≤ s.c - 1 ∧ s.c - 1 ≤ prm.H by omega
        c_low := by simp [hs] }⟩
  all_goals
    exact (inv_burst_iff rfl).mpr ⟨{ hr with }, { hc with }, { hb with },
      ⟨by simp, by simp, fun _ => ⟨prm.L_pos, Nat.le_refl _⟩, by simp⟩⟩

theorem loStep_inv (hs : s.st = .lo) (hi : Inv prm s) (h : loStep prm s = .next u) :
    Inv prm u := by
  have hbs : bursting s = true := by simp [bursting, hs]
  obtain ⟨hr, hc, hb, hk⟩ := (inv_burst_iff hbs).mp hi
  simp only [loStep] at h
  split_ifs at h with h1 hp
  · cases h
    have hle := (hk.c_low hs).2
    exact (inv_burst_iff (s := { s with c := s.c - 1 }) hbs).mpr
      ⟨{ hr with }, { hc with }, { hb with },
      { hk with
        c_high := by simp [hs]
        c_low := fun _ => show 1 ≤ s.c - 1 ∧ s.c - 1 ≤ prm.L by omega }⟩
  · cases h
    have hp1 : (s.p + 1#5).toNat ≤ 24 := by bv_omega
    exact (inv_burst_iff rfl).mpr ⟨{ hr with p_le := hp1 }, { hc with }, { hb with },
      ⟨by simp, fun _ => ⟨prm.H_pos, Nat.le_refl _⟩, by simp, by simp⟩⟩
  · exact transactionDone_inv hr hc hb (hi.sck_low (by simp [hs])) h

/-- The sequencer's step keeps the invariant (R93). -/
theorem seqStep_inv {d t : Bool} (hi : Inv prm s) (h : seqStep prm d t s = .next u) :
    Inv prm u := by
  cases hs : s.st with
  | idle =>
    rw [seqStep_of_idle hs] at h
    cases h
    exact hi
  | delay => exact delayStep_inv hs hi (seqStep_of_delay hs ▸ h)
  | rw =>
    rw [seqStep_of_rw hs] at h
    cases h
    exact rwStep_inv d t hs hi
  | hi =>
    rw [seqStep_of_hi hs] at h
    cases h
    exact hiStep_inv d hs hi
  | lo => exact loStep_inv hs hi (seqStep_of_lo hs ▸ h)

end
end Sys2Proof.Machine
end

section
/-! The invariant along the host's part of a cycle and along the whole cycle (spec/40_command.md R90 to R97),
and the statements about it. -/

namespace Sys2Proof

theorem decodePlain_eq_cmd {w : Word} {i j : Instr} (h : decodePlain w i = .cmd j) : i = j := by
  simp only [decodePlain] at h
  split_ifs at h
  exact Decoded.cmd.inj h

theorem opField_of_decodeSample {w : Word} {i : Instr} (h : decodeSample w = .cmd i) :
    opField (encode i) = 3#4 := by
  simp only [decodeSample] at h
  split_ifs at h <;> cases h <;> exact opField_encode _

theorem opField_of_decodeSetPhase {w : Word} {i : Instr} (h : decodeSetPhase w = .cmd i) :
    opField (encode i) = 4#4 := by
  simp only [decodeSetPhase] at h
  split_ifs at h <;> cases h <;> exact opField_encode _

/-- A command's own word has the OP of every word it is decoded from (R71, R75). -/
theorem opField_of_decode {w : Word} {i : Instr} (h : decode w = .cmd i) :
    opField (encode i) = opField w := by
  simp only [decode] at h
  split_ifs at h with _ h0 h1 h2 _ h3 h4
  · rw [← decodePlain_eq_cmd h, h0]
    exact opField_encode _
  · rw [← decodePlain_eq_cmd h, h1]
    exact opField_encode _
  · rw [← Decoded.cmd.inj h, h2]
    exact opField_encode _
  · rw [opField_of_decodeSample h, h3]
  · rw [opField_of_decodeSetPhase h, h4]

end Sys2Proof

namespace Sys2Proof.Machine

/-- What an accepted command does beyond `accept` (R98, R123, R146, R162 to R165, R174). -/
def starts : Instr → State → State
  | .nop, a => a
  | .readRaw, a => burstStart 1#8 { a with stage := .raws }
  | .average c, a => burstStart c { a with stage := .avg }
  | .sampleDc c, a => burstStart c { a with stage := .dc }
  | .sampleAc c, a => delayStart .warm a.warmupMs { a with n := c, phase := .positive }
  | .setphOff, a => { a with phase := .off }
  | .setphPos, a => { a with phase := .positive }
  | .setphNeg, a => { a with phase := .negative }

/-- Every command is `issue` with its own start (R91, R92). -/
theorem exec_eq_issue (i : Instr) (s : State) : exec i s = .next (issue i (starts i) s) := by
  cases i <;> rfl

@[simp] theorem starts_drop (i : Instr) (a : State) : (starts i a).drop = a.drop := by
  cases i <;> rfl

@[simp] theorem starts_op (i : Instr) (a : State) : (starts i a).op = a.op := by
  cases i <;> rfl

section
variable {prm : Params} {s v : State} {w : Word}

/-- What a CMD write does while idle: the word is rejected, or its command starts (R92). -/
theorem cmdWrite_of_idle (hs : s.st = .idle) (h : cmdWrite w s = .next v) :
    (∃ e, v = reject e w s) ∨
    (∃ i, decode w = .cmd i ∧ paramOk i s = true ∧ v = starts i (accepted w s)) := by
  cases hd : decode w with
  | illegal why =>
    simp only [cmdWrite, hd, illegalWrite_of_idle hs] at h
    cases h
    exact .inl ⟨.illegal, rfl⟩
  | cmd i =>
    have ho := opField_of_decode hd
    simp only [cmdWrite, hd, exec_eq_issue] at h
    cases h
    obtain ⟨hb, -⟩ | ⟨-, -, hv⟩ | ⟨-, hp, hv⟩ := issue_cases i (starts i) s
    · exact absurd hs hb
    · exact .inl ⟨.param, by simp only [hv, reject, acceptHead, ho]⟩
    · exact .inr ⟨i, rfl, hp, by simp only [hv, accepted, acceptHead, ho]⟩

/-- A write to another index changes at most the configuration while idle (R95, R97). -/
theorem regWrite_of_idle (i : BitVec 4) (w : Word) (hs : s.st = .idle) :
    ∃ x y z, regWrite i w s = { s with timeoutMs := x, warmupMs := y, settleMs := z } := by
  simp only [regWrite, cfgWrite, if_pos hs]
  split_ifs
  · exact ⟨_, s.warmupMs, s.settleMs, rfl⟩
  · exact ⟨s.timeoutMs, _, s.settleMs, rfl⟩
  · exact ⟨s.timeoutMs, s.warmupMs, _, rfl⟩
  · exact ⟨s.timeoutMs, s.warmupMs, s.settleMs, rfl⟩
  · exact ⟨s.timeoutMs, s.warmupMs, s.settleMs, rfl⟩

/-- What the host's part of a cycle does while idle: a CMD write, or at most a configuration write (R91). -/
theorem hostPart_of_idle {a : PortOp} (hs : s.st = .idle) (h : hostPart a s = .next v) :
    (∃ w, a = .write idxCmd w ∧ cmdWrite w s = .next v) ∨
    ((∀ w, a ≠ .write idxCmd w) ∧
      ∃ x y z, v = { s with timeoutMs := x, warmupMs := y, settleMs := z }) := by
  cases a with
  | none =>
    cases h
    exact .inr ⟨by simp, s.timeoutMs, s.warmupMs, s.settleMs, rfl⟩
  | read i =>
    cases h
    exact .inr ⟨by simp, s.timeoutMs, s.warmupMs, s.settleMs, rfl⟩
  | write i w =>
    by_cases hi : i = idxCmd
    · subst hi
      exact .inl ⟨w, rfl, h⟩
    · simp only [hostPart, hostWrite, hi, if_false] at h
      cases h
      exact .inr ⟨by simp [hi], regWrite_of_idle i w hs⟩

theorem inv_reject (e : Err) (w : Word) (hs : s.st = .idle) (hi : Inv prm s) :
    Inv prm (reject e w s) := by
  obtain ⟨hr, hd⟩ := (inv_idle_iff hs).mp hi
  exact (inv_idle_iff (s := reject e w s) hs).mpr
    ⟨{ hr with }, hd.sck_low, fun h => (by cases h), fun _ => ⟨rfl, rfl⟩⟩

theorem inv_config (x y z : BitVec 16) (hs : s.st = .idle) (hi : Inv prm s) :
    Inv prm { s with timeoutMs := x, warmupMs := y, settleMs := z } := by
  obtain ⟨hr, hd⟩ := (inv_idle_iff hs).mp hi
  exact (inv_idle_iff (s := { s with timeoutMs := x, warmupMs := y, settleMs := z }) hs).mpr
    ⟨{ hr with }, { hd with }⟩

/-- An accepted word that starts no sequence keeps the invariant in any phase (R98, R162 to R164). -/
theorem inv_accepted (w : Word) (f : Phase) (hs : s.st = .idle) (hi : Inv prm s) :
    Inv prm { accepted w s with phase := f } := by
  obtain ⟨hr, hd⟩ := (inv_idle_iff hs).mp hi
  exact (inv_idle_iff (s := { accepted w s with phase := f }) hs).mpr
    ⟨{ hr with }, hd.sck_low, fun h => (by cases h), fun h => absurd rfl h⟩

/-- An accepted command satisfies what holds of a running one (R29, R76, R92). -/
theorem commandInv_accepted {c : BitVec 8} {g : Stage} {f : Phase} (hc : c ≠ 0#8)
    (ht : s.timeoutMs ≠ 0#16) (ho : opField w = stageOp g) (hg : g = .raws → c = 1#8)
    (hf : ∀ f', stagePhase g = some f' → f = f') :
    CommandInv { accepted w s with n := c, stage := g, phase := f } :=
  ⟨hc, hg, ht, ho, hf, rfl, rfl⟩

/-- The start of an accepted command keeps the invariant (R92, R123, R146, R162 to R165, R174). -/
theorem inv_starts {i : Instr} (hs : s.st = .idle) (hi : Inv prm s) (hp : paramOk i s = true)
    (ho : opField w = opField (encode i)) : Inv prm (starts i (accepted w s)) := by
  have hr := hi.regs
  have hk := hi.sck_low (by simp [hs])
  rw [opField_encode] at ho
  cases i with
  | nop => exact inv_accepted w s.phase hs hi
  | setphOff => exact inv_accepted w .off hs hi
  | setphPos => exact inv_accepted w .positive hs hi
  | setphNeg => exact inv_accepted w .negative hs hi
  | readRaw =>
    have ht : s.timeoutMs ≠ 0#16 := by simpa [paramOk] using hp
    exact inv_burstStart { hr with }
      (commandInv_accepted (by decide) ht ho (fun _ => rfl) (by simp [stagePhase])) rfl hk
  | average c =>
    obtain ⟨hc, ht⟩ : c ≠ 0#8 ∧ s.timeoutMs ≠ 0#16 := by simpa [paramOk] using hp
    exact inv_burstStart { hr with }
      (commandInv_accepted hc ht ho (by simp) (by simp [stagePhase])) rfl hk
  | sampleDc c =>
    obtain ⟨hc, ht⟩ : c ≠ 0#8 ∧ s.timeoutMs ≠ 0#16 := by simpa [paramOk] using hp
    exact inv_burstStart { hr with }
      (commandInv_accepted hc ht ho (by simp) (by simp [stagePhase])) rfl hk
  | sampleAc c =>
    obtain ⟨hc, ht⟩ : c ≠ 0#8 ∧ s.timeoutMs ≠ 0#16 := by simpa [paramOk] using hp
    exact inv_delayStart { hr with }
      (commandInv_accepted hc ht ho (by simp) (by simp [stagePhase])) rfl hk (fun _ => rfl) (by simp)

/-- The host's part of a cycle keeps the invariant (R91, R92, R94 to R97). -/
theorem hostPart_inv {a : PortOp} (hi : Inv prm s) (h : hostPart a s = .next v) : Inv prm v := by
  by_cases hs : s.st = .idle
  · obtain ⟨w, -, hw⟩ | ⟨-, x, y, z, rfl⟩ := hostPart_of_idle hs h
    · obtain ⟨e, rfl⟩ | ⟨i, hd, hp, rfl⟩ := cmdWrite_of_idle hs hw
      · exact inv_reject e w hs hi
      · exact inv_starts hs hi hp (opField_of_decode hd).symm
    · exact inv_config x y z hs hi
  · obtain ⟨b, hb, -⟩ := hostPart_of_busy (a := a) hs
    cases hb.symm.trans h
    exact inv_setOuter b s.env hi

/-- Every cycle keeps the invariant, with any parameters (R90, R210). -/
theorem cycle_inv {t : State} (hi : Inv prm s) (h : cycle prm s = .next t) : Inv prm t := by
  obtain ⟨a, -, ⟨-, rfl⟩ | ⟨-, v, u, hv, hu, rfl⟩⟩ := cycle_eq_next h
  · exact inv_endCycle _ _ (inv_resetBlock prm s)
  · have hiv := hostPart_inv hi hv
    split_ifs at hu
    · cases hu
      exact inv_endCycle _ _ hiv
    · exact inv_endCycle _ _ (seqStep_inv hiv hu)

end

/-- Settles O39: the table of R48 satisfies the invariant of an idle block. -/
theorem invariantHoldsAtReset : Obligations.InvariantHoldsAtReset :=
  inv_reset

/-- Settles O40: the host's part, the sequencer's step and reset each keep the invariant, and `step` is
`cycle` with this block's parameters. -/
theorem everyStepKeepsTheInvariant : Obligations.EveryStepKeepsTheInvariant :=
  ⟨fun _ _ hi h => cycle_inv hi h, fun _ _ _ hi h => cycle_inv hi h⟩

/-- Settles O42: RESULT is in the range of its command, and SENTINEL lies below every such range. -/
theorem validResultsAreNeverTheSentinel : Obligations.ValidResultsAreNeverTheSentinel := by
  intro prm s hi hv
  obtain ⟨hst, herr, hrange⟩ := hi.data.valid_result hv
  obtain ⟨hlo, hhi⟩ := toInt_of_resultInRange hrange
  refine ⟨?_, hst, herr, hlo, hhi⟩
  intro hres
  rw [hres] at hlo
  exact absurd hlo (by decide)

end Sys2Proof.Machine
end

section
/-! What a cycle does to DROP, OP and the phase (spec/10_state.md R26, R27, R29), and the
reserved indices (R37). -/

namespace Sys2Proof.Machine

theorem isConfig_eq_true_iff {i : BitVec 4} : isConfig i = true ↔ i = 6#4 ∨ i = 7#4 ∨ i = 8#4 :=
  decide_eq_true_iff

section
variable {prm : Params} {s t u v : State} {a : PortOp}

/-- What a cycle without reset did (R90): the host's part, then the sequencer's step of a running command. -/
theorem cycle_without_reset (hr : resolve prm (hostPins s).access = .ok a)
    (hn : (hostPins s).rst = false) (h : cycle prm s = .next t) :
    ∃ v u, hostPart a s = .next v ∧
      (if s.st = .idle then Host.Outcome.next v
        else seqStep prm (doutNow prm s) (tickNow prm s) v) = .next u ∧
      t = endCycle (portRead prm s a) (isRead a) u := by
  obtain ⟨a', ha, ⟨hn', -⟩ | ⟨-, hv⟩⟩ := cycle_eq_next h
  · rw [hn] at hn'
    cases hn'
  · cases hr.symm.trans ha
    exact hv

/-- What a cycle without reset did while idle (R90). -/
theorem cycle_idle (hr : resolve prm (hostPins s).access = .ok a)
    (hn : (hostPins s).rst = false) (hs : s.st = .idle) (h : cycle prm s = .next t) :
    ∃ v, hostPart a s = .next v ∧ t = endCycle (portRead prm s a) (isRead a) v := by
  obtain ⟨v, u, hv, hu, rfl⟩ := cycle_without_reset hr hn h
  rw [if_pos hs] at hu
  cases hu
  exact ⟨v, hv, rfl⟩

/-- What a cycle without reset did while a command ran (R90, R94, R96). -/
theorem cycle_busy (hr : resolve prm (hostPins s).access = .ok a)
    (hn : (hostPins s).rst = false) (hb : s.st ≠ .idle) (h : cycle prm s = .next t) :
    ∃ v u, hostPart a s = .next v ∧
      seqStep prm (doutNow prm s) (tickNow prm s) v = .next u ∧
      t = endCycle (portRead prm s a) (isRead a) u := by
  obtain ⟨v, u, hv, hu, rfl⟩ := cycle_without_reset hr hn h
  rw [if_neg hb] at hu
  exact ⟨v, u, hv, hu, rfl⟩

/-- A write to CMD or to the configuration while a command runs only sets DROP (R94, R96). -/
theorem hostPart_dropped {i : BitVec 4} (w : Word) (hb : s.st ≠ .idle)
    (hi : i = 0#4 ∨ i = 6#4 ∨ i = 7#4 ∨ i = 8#4) :
    hostPart (.write i w) s = .next (dropWrite s) := by
  by_cases h0 : i = idxCmd
  · simp only [hostPart, hostWrite, if_pos h0, cmdWrite_of_busy hb]
  · have hc : isConfig i = true := isConfig_eq_true_iff.mpr (hi.resolve_left h0)
    simp only [hostPart, hostWrite, if_neg h0, regWrite, if_pos hc, if_neg hb]

/-- An access that writes neither CMD nor the configuration changes nothing of the block (R59, R97). -/
theorem hostPart_inert
    (ha : ∀ i w, a = .write i w → ¬ (i = 0#4 ∨ i = 6#4 ∨ i = 7#4 ∨ i = 8#4)) :
    hostPart a s = .next s := by
  cases a with
  | none => rfl
  | read i => rfl
  | write i w =>
    obtain ⟨h0, hc⟩ := not_or.mp (ha i w rfl)
    have hc' : ¬ isConfig i = true := mt isConfig_eq_true_iff.mp hc
    simp only [hostPart, hostWrite, if_neg (show i ≠ idxCmd from h0), regWrite, if_neg hc']

/-- A CMD write while idle clears DROP and records OP (R26, R29, R92). -/
theorem cmdWrite_drop_op {w : Word} (hs : s.st = .idle) (h : cmdWrite w s = .next v) :
    v.drop = false ∧ v.op = opField w := by
  obtain ⟨e, rfl⟩ | ⟨i, -, -, rfl⟩ := cmdWrite_of_idle hs h
  · exact ⟨rfl, rfl⟩
  · exact ⟨by simp, by simp⟩

/-- A cycle without a CMD write while idle keeps OP and DROP (R26, R29). -/
theorem hostPart_idle_kept (hs : s.st = .idle) (ha : ∀ w, a ≠ .write idxCmd w)
    (h : hostPart a s = .next v) : v.drop = s.drop ∧ v.op = s.op := by
  obtain ⟨w, hw, -⟩ | ⟨-, x, y, z, rfl⟩ := hostPart_of_idle hs h
  · exact absurd hw (ha w)
  · exact ⟨rfl, rfl⟩

/-- Only SETPH.* and SAMPLE_AC change the phase when they start (R161 to R165). -/
theorem starts_phase (i : Instr) (a : State) :
    (starts i a).phase = a.phase ∨
      i = .setphOff ∨ i = .setphPos ∨ i = .setphNeg ∨ ∃ c, i = .sampleAc c := by
  cases i <;> simp [starts]

theorem stageOfAc_eq_true_iff {g : Stage} : stageOfAc g = true ↔
    g = .warm ∨ g = .setp ∨ g = .burp ∨ g = .setn ∨ g = .burn := by
  cases g <;> simp [stageOfAc]

/-! Outside the stages of SAMPLE_AC the sequencer keeps the phase (R161). -/

theorem delayDone_not_ac (hg : stageOfAc s.stage = false) :
    delayDone s = .fault .noDelayInStage := by
  cases hs : s.stage <;> simp only [delayDone, hs] <;> simp [hs, stageOfAc] at hg

theorem burstDone_phase {m : Word} (hg : stageOfAc s.stage = false)
    (h : burstDone m s = .next u) : u.phase = s.phase := by
  cases hs : s.stage <;> simp only [burstDone, hs] at h <;> cases h
  case burp => simp [hs, stageOfAc] at hg
  case burn => simp [hs, stageOfAc] at hg
  all_goals rfl

theorem transactionDone_phase {x : Sample} (hg : stageOfAc s.stage = false)
    (h : transactionDone x s = .next u) : u.phase = s.phase := by
  simp only [transactionDone, burstContinue] at h
  split_ifs at h
  · cases h
    rfl
  · exact burstDone_phase (s := { s with raw := zext32 x, acc := s.acc + zext32 x }) hg h

theorem seqStep_phase {d b : Bool} (hg : stageOfAc s.stage = false)
    (h : seqStep prm d b s = .next u) : u.phase = s.phase := by
  cases hs : s.st with
  | idle =>
    rw [seqStep_of_idle hs] at h
    cases h
    rfl
  | delay =>
    rw [seqStep_of_delay hs, delayStep, delayDone_not_ac hg] at h
    split_ifs at h <;> cases h <;> rfl
  | rw =>
    rw [seqStep_of_rw hs] at h
    cases h
    simp only [rwStep]
    split_ifs <;> simp [hg]
  | hi =>
    rw [seqStep_of_hi hs] at h
    cases h
    simp only [hiStep]
    split_ifs <;> rfl
  | lo =>
    rw [seqStep_of_lo hs, loStep] at h
    split_ifs at h
    · cases h
      rfl
    · cases h
      rfl
    · exact transactionDone_phase hg h

end

/-- Settles O45: the host's part of the cycle decides DROP, and the sequencer keeps it. -/
theorem dropIsSetAndClearedAsStated : Obligations.DropIsSetAndClearedAsStated := by
  intro prm s t a hr h
  refine ⟨fun hn => ?reset, fun hn hs hw => ?idleCmd, fun hn hs hw => ?idleOther,
    fun hn hb hw => ?busyDropped, fun hn hb hw => ?busyOther⟩
  case reset =>
    rw [cycle_of_reset hr hn] at h
    cases h
    rfl
  case idleCmd =>
    obtain ⟨w, rfl⟩ := hw
    obtain ⟨v, hv, rfl⟩ := cycle_idle hr hn hs h
    exact (cmdWrite_drop_op hs hv).1
  case idleOther =>
    obtain ⟨v, hv, rfl⟩ := cycle_idle hr hn hs h
    exact (hostPart_idle_kept hs hw hv).1
  case busyDropped =>
    obtain ⟨i, w, rfl, hi⟩ := hw
    obtain ⟨v, u, hv, hu, rfl⟩ := cycle_busy hr hn hb h
    cases (hostPart_dropped w hb hi).symm.trans hv
    exact (seqStep_settings hu).drop
  case busyOther =>
    obtain ⟨v, u, hv, hu, rfl⟩ := cycle_busy hr hn hb h
    cases (hostPart_inert hw).symm.trans hv
    exact (seqStep_settings hu).drop

/-- Settles O46: only the acceptance of a CMD word writes OP; the sequencer and a dropped write keep it. -/
theorem opRecordsTheLastWordTaken : Obligations.OpRecordsTheLastWordTaken := by
  intro prm s t a hr hn h
  constructor
  · rintro w hs rfl
    obtain ⟨v, hv, rfl⟩ := cycle_idle hr hn hs h
    exact (cmdWrite_drop_op hs hv).2
  · intro hkeep
    by_cases hs : s.st = .idle
    · obtain ⟨v, hv, rfl⟩ := cycle_idle hr hn hs h
      exact (hostPart_idle_kept hs (hkeep.resolve_left (not_not_intro hs)) hv).2
    · obtain ⟨v, u, hv, hu, rfl⟩ := cycle_busy hr hn hs h
      obtain ⟨b, hb, -⟩ := hostPart_of_busy (a := a) hs
      cases hb.symm.trans hv
      exact (seqStep_settings hu).op

/-- Settles O47: while idle only a started SETPH.* or SAMPLE_AC writes the phase, and while a command runs
only the sequencer in a stage of SAMPLE_AC. -/
theorem phaseChangesOnlyByItsCommands : Obligations.PhaseChangesOnlyByItsCommands := by
  intro prm s t a hr hn h hne
  by_cases hs : s.st = .idle
  · obtain ⟨v, hv, rfl⟩ := cycle_idle hr hn hs h
    obtain ⟨w, rfl, hw⟩ | ⟨-, x, y, z, rfl⟩ := hostPart_of_idle hs hv
    · obtain ⟨e, rfl⟩ | ⟨i, hd, -, rfl⟩ := cmdWrite_of_idle hs hw
      · exact absurd rfl hne
      · exact .inl ⟨hs, w, i, rfl, hd, (starts_phase i (accepted w s)).resolve_left hne⟩
    · exact absurd rfl hne
  · obtain ⟨v, u, hv, hu, rfl⟩ := cycle_busy hr hn hs h
    obtain ⟨b, hb, -⟩ := hostPart_of_busy (a := a) hs
    cases hb.symm.trans hv
    refine .inr ⟨hs, stageOfAc_eq_true_iff.mp ?_⟩
    by_contra hg
    exact hne (seqStep_phase (s := setOuter b s.env s) (u := u) (Bool.eq_false_iff.mpr hg) hu)

/-- Settles O19: an index above 8 is neither mapped nor configured, so a write there reaches no state. -/
theorem reservedIndicesAreInert : Obligations.ReservedIndicesAreInert := by
  intro prm s i w hi
  have unmapped : ∀ j : BitVec 4, j.toNat < 9 → i ≠ j := by
    rintro j hj rfl
    omega
  have hne : ∀ i' w', PortOp.write i w = .write i' w' →
      ¬ (i' = 0#4 ∨ i' = 6#4 ∨ i' = 7#4 ∨ i' = 8#4) := by
    rintro _ _ ⟨⟩
    simp [unmapped]
  have hc : ¬ isConfig i = true := fun h => hne i w rfl (.inr (isConfig_eq_true_iff.mp h))
  refine ⟨?_, if_neg hc, fun t h => ?_⟩
  · simp [readValue, idxStatus, idxResult, idxRaw, idxValp, idxValn, idxTimeout, idxWarmup, idxSettle,
      unmapped]
  · obtain ⟨v, u, hv, hu, rfl⟩ := cycle_without_reset (a := .write i w) rfl rfl h
    cases (hostPart_inert hne).symm.trans hv
    split_ifs at hu
    · cases hu
      rfl
    · exact (seqStep_settings hu).drop

end Sys2Proof.Machine
end

section
/-! The fields of STATUS (spec/10_state.md R22 to R29) and the state after reset (R48). -/

namespace Sys2Proof.Machine

section
variable (prm : Params) (s : State)

/-- STATUS bit by bit (R22). -/
theorem statusWord_getLsbD {i : Nat} (hi : i < 20) : (statusWord prm s).getLsbD i =
    if i < 1 then busy s else if i < 2 then s.valid
    else if i < 5 then (errCode s.err).getLsbD (i - 2) else if i < 6 then s.drop
    else if i < 8 then false else if i < 10 then (phaseCode s.phase).getLsbD (i - 8)
    else if i < 11 then pwr prm s else if i < 12 then pol prm s else if i < 13 then s.sck
    else if i < 16 then false else s.op.getLsbD (i - 16) := by
  rw [statusWord, BitVec.getLsbD_setWidth, decide_eq_true (by omega), Bool.true_and]
  change BitVec.getLsbD (w := 4 + 3 + 1 + 1 + 1 + 2 + 2 + 1 + 3 + 1 + 1) _ i = _
  unfold statusFields
  simp only [BitVec.getLsbD_append, BitVec.getLsbD_ofBool, BitVec.getLsbD_zero]
  interval_cases i <;> simp

/-- A field of STATUS is what its bits are (R22). -/
theorem statusWord_field {lo len : Nat} {f : BitVec len}
    (h : ∀ i < len, (statusWord prm s).getLsbD (lo + i) = f.getLsbD i) :
    (statusWord prm s).extractLsb' lo len = f := by
  apply BitVec.eq_of_getLsbD_eq
  intro i hi
  rw [BitVec.getLsbD_extractLsb', decide_eq_true hi, Bool.true_and, h i hi]

theorem statusWord_err : (statusWord prm s).extractLsb' 2 3 = errCode s.err := by
  apply statusWord_field
  intro i hi
  interval_cases i <;> exact statusWord_getLsbD prm s (by decide)

theorem statusWord_phase : (statusWord prm s).extractLsb' 8 2 = phaseCode s.phase := by
  apply statusWord_field
  intro i hi
  interval_cases i <;> exact statusWord_getLsbD prm s (by decide)

theorem statusWord_op : (statusWord prm s).extractLsb' 16 4 = s.op := by
  apply statusWord_field
  intro i hi
  interval_cases i <;> exact statusWord_getLsbD prm s (by decide)

/-- The reserved bits of STATUS read 0 (R22). -/
theorem statusWord_reserved : (statusWord prm s).extractLsb' 6 2 = 0#2 ∧
    (statusWord prm s).extractLsb' 13 3 = 0#3 ∧ (statusWord prm s).extractLsb' 20 12 = 0#12 := by
  refine ⟨?_, ?_, ?_⟩ <;> apply statusWord_field <;> intro i hi
  · interval_cases i <;> exact statusWord_getLsbD prm s (by decide)
  · interval_cases i <;> exact statusWord_getLsbD prm s (by decide)
  · simp [statusWord]

end

/-- Settles O18: STATUS read field by field, and each other index through the map of R53. -/
theorem registersReadAsMapped : Obligations.RegistersReadAsMapped := by
  intro prm s
  have hs : readValue prm s 1#4 = statusWord prm s := rfl
  have err : ∀ e, s.err = e → (statusWord prm s).extractLsb' 2 3 = errCode e :=
    fun e h => h ▸ statusWord_err prm s
  have phase : ∀ f, s.phase = f → (statusWord prm s).extractLsb' 8 2 = phaseCode f :=
    fun f h => h ▸ statusWord_phase prm s
  obtain ⟨h6, h13, h20⟩ := statusWord_reserved prm s
  rw [hs]
  exact ⟨rfl, statusWord_getLsbD prm s (by decide), statusWord_getLsbD prm s (by decide),
    err .none, err .timeout, err .illegal, err .param, statusWord_getLsbD prm s (by decide), h6,
    phase .off, phase .positive, phase .negative, statusWord_getLsbD prm s (by decide),
    statusWord_getLsbD prm s (by decide), statusWord_getLsbD prm s (by decide), h13,
    statusWord_op prm s, h20, rfl, rfl, rfl, rfl, rfl, rfl, rfl⟩

/-- Settles O25: the three phases one by one, and bits 10 and 11 of STATUS. -/
theorem linesFollowThePhase : Obligations.LinesFollowThePhase := by
  intro prm s
  refine ⟨fun h => ?_, fun h => ?_, fun h => ?_, statusWord_getLsbD prm s (by decide),
    statusWord_getLsbD prm s (by decide)⟩ <;> simp [pwr, pol, h]

/-- STATUS in the state after reset: only the two lines in phase Off show (R28, R48). -/
theorem statusWord_reset (prm : Params) : statusWord prm State.reset =
    ((if prm.pwrOn then 0#32 else 1#32) <<< 10) ||| ((if prm.polNeg then 0#32 else 1#32) <<< 11) := by
  have hpwr : pwr prm State.reset = !prm.pwrOn := rfl
  have hpol : pol prm State.reset = !prm.polNeg := rfl
  rw [statusWord, statusFields, hpwr, hpol]
  cases prm.pwrOn <;> cases prm.polNeg <;> rfl

/-- Settles O24: the table of R48 field by field, and STATUS from its two lines. -/
theorem resetValuesAreTheTable : Obligations.ResetValuesAreTheTable := by
  refine ⟨rfl, rfl, rfl, rfl, rfl, rfl, rfl, rfl, rfl, rfl, rfl, rfl, rfl, rfl, rfl, rfl, rfl, rfl,
    rfl, rfl, rfl, rfl, rfl, fun prm => ⟨rfl, rfl, statusWord_reset prm, fun hpwr hpol => ?_⟩⟩
  refine (statusWord_reset prm).trans ?_
  rw [hpwr, hpol]
  rfl

end Sys2Proof.Machine
end

section
/-! The host's accesses (spec/20_memory.md R52 to R59): a cycle depends on the access only as the block resolves
it, reads have no side effect, the byte-addressed window, and what holds between commands and while one
runs (R62, R65). -/

namespace Sys2Proof.Machine

section
variable {prm : Params} {s t : State}

/-- A cycle with an access the block does not admit has no step (R52, R57). -/
theorem cycle_of_refused {r : Refusal} (hr : resolve prm (hostPins s).access = .error r) :
    cycle prm s = .refused r := by
  simp only [cycle, hr]

theorem seqStep_env (prm : Params) (d b : Bool) (e : Env) (s : State) :
    seqStep prm d b { s with env := e } =
      andThen (seqStep prm d b s) fun u => .next { u with env := e } := by
  refine (seqStep_outer prm d b s.drop e s).trans ?_
  cases hq : seqStep prm d b s with
  | next u => simp only [andThen_next, setOuter, ← (seqStep_settings hq).drop]
  | fault r => rfl
  | refused r => rfl

/-- A cycle without reset, from the state without its access: of what the host drives, only the access as
the block resolves it shows (R90). -/
theorem runCycle_hostDoes (prm : Params) (a : PortOp) (q : HostPins) (s : State) :
    runCycle prm a (hostDoes q s) =
      andThen (hostPart a s) fun v =>
        andThen (if s.st = .idle then .next v else seqStep prm (doutNow prm s) (tickNow prm s) v)
          fun u => .next { u with
            env := envNext (portRead prm s a) (isRead a) (hostDoes idlePins s) } := by
  have hp := hostPart_env a (hostDoes q s).env s
  rw [runCycle, show hostPart a (hostDoes q s) = _ from hp, andThen_assoc]
  congr 1
  funext v
  by_cases hs : s.st = .idle
  · rw [if_pos hs, andThen_next, if_pos (show (hostDoes q s).st = .idle from hs)]
    cases a <;> rfl
  · rw [if_neg hs, andThen_next, if_neg (show (hostDoes q s).st ≠ .idle from hs), seqStep_env,
      andThen_assoc]
    cases a <;> rfl

/-- Two accesses that the block resolves to the same have the same cycle, with reset or without. -/
theorem cycle_hostDoes_congr {r : Bool} {x y : Access} {a : PortOp} (s : State)
    (hx : resolve prm x = .ok a) (hy : resolve prm y = .ok a) :
    cycle prm (hostDoes ⟨r, x⟩ s) = cycle prm (hostDoes ⟨r, y⟩ s) := by
  cases r with
  | true =>
    rw [cycle_of_reset (s := hostDoes ⟨true, x⟩ s) hx rfl,
      cycle_of_reset (s := hostDoes ⟨true, y⟩ s) hy rfl]
    rfl
  | false =>
    rw [cycle_of_resolve (s := hostDoes ⟨false, x⟩ s) hx rfl,
      cycle_of_resolve (s := hostDoes ⟨false, y⟩ s) hy rfl, runCycle_hostDoes, runCycle_hostDoes]

/-- The whole-word accesses of the window, and the register of each (R56, R57). -/
theorem busIndex_eq_some_iff {addr len : Nat} {i : BitVec 4} :
    busIndex prm addr len = some i ↔ len = 4 ∧ addr = prm.base + 4 * i.toNat := by
  have hi := i.isLt
  simp only [busIndex]
  split_ifs with h
  · rw [Option.some_inj, ← BitVec.toNat_inj, BitVec.toNat_ofNat]
    omega
  · constructor
    · intro hn
      cases hn
    · omega

theorem busIndex_eq_none {addr len : Nat}
    (h : ¬ (len = 4 ∧ ∃ i < 16, addr = prm.base + 4 * i)) : busIndex prm addr len = none := by
  cases hb : busIndex prm addr len with
  | none => rfl
  | some i =>
    obtain ⟨hl, ha⟩ := busIndex_eq_some_iff.mp hb
    exact absurd ⟨hl, i.toNat, i.isLt, ha⟩ h

/-- The four byte lanes of a word are the word (R56). -/
theorem byteLane_append (v : Word) :
    byteLane v 3 ++ byteLane v 2 ++ byteLane v 1 ++ byteLane v 0 = v := by
  simp only [byteLane]
  rw [BitVec.extractLsb'_append_extractLsb'_eq_extractLsb' (show 8 * 3 = 8 * 2 + 8 from rfl),
    BitVec.extractLsb'_append_extractLsb'_eq_extractLsb' (show 8 * 2 = 8 * 1 + 8 from rfl),
    BitVec.extractLsb'_append_extractLsb'_eq_extractLsb' (show 8 * 1 = 8 * 0 + 8 from rfl)]
  exact BitVec.extractLsb'_eq_self

/-! Between commands (R62). -/

/-- No coming cycle resets the block or writes CMD. -/
def NoCommand (prm : Params) (s : State) : Prop :=
  ∀ q, HostItem.pins q ∈ s.env.host →
    q.rst = false ∧ ∀ w, resolve prm q.access ≠ .ok (.write idxCmd w)

theorem noCommand_now (hn : NoCommand prm s) :
    (hostPins s).rst = false ∧ ∀ w, resolve prm (hostPins s).access ≠ .ok (.write idxCmd w) := by
  cases hh : s.env.host with
  | nil => simp [hostPins, hh]
  | cons x rest =>
    cases x with
    | pins q => simpa only [hostPins, hh] using hn q (by simp [hh])
    | waitIdle => simp [hostPins, hh]

theorem hostRest_subset (r : Word) (s : State) : hostRest r s ⊆ s.env.host := by
  intro x hx
  cases hh : s.env.host with
  | nil => simp [hostRest, hh] at hx
  | cons y rest =>
    cases y with
    | pins q =>
      simp only [hostRest, hh] at hx
      exact List.mem_cons_of_mem _ hx
    | waitIdle =>
      simp only [hostRest, hh] at hx
      split at hx
      · exact hx
      · exact List.mem_cons_of_mem _ hx

/-- `t` is `s` but for the configuration and the environment, in which no host work is new. -/
def OutcomeKept (s t : State) : Prop :=
  ∃ x y z e, t = { s with timeoutMs := x, warmupMs := y, settleMs := z, env := e } ∧
    e.host ⊆ s.env.host

theorem OutcomeKept.st_eq (h : OutcomeKept s t) : t.st = s.st := by
  obtain ⟨x, y, z, e, rfl, -⟩ := h
  rfl

theorem OutcomeKept.noCommand (h : OutcomeKept s t) (hn : NoCommand prm s) : NoCommand prm t := by
  obtain ⟨x, y, z, e, rfl, he⟩ := h
  exact fun q hq => hn q (he hq)

theorem OutcomeKept.trans {u : State} (h : OutcomeKept s t) (h' : OutcomeKept t u) :
    OutcomeKept s u := by
  obtain ⟨x, y, z, e, rfl, he⟩ := h
  obtain ⟨x', y', z', e', rfl, he'⟩ := h'
  exact ⟨x', y', z', e', rfl, List.Subset.trans he' he⟩

theorem cycle_outcomeKept (hs : s.st = .idle) (hn : NoCommand prm s) (h : cycle prm s = .next t) :
    OutcomeKept s t := by
  obtain ⟨hrst, hcmd⟩ := noCommand_now hn
  obtain ⟨a, hr, -⟩ := cycle_eq_next h
  obtain ⟨v, hv, rfl⟩ := cycle_idle hr hrst hs h
  obtain ⟨w, rfl, -⟩ | ⟨-, x, y, z, rfl⟩ := hostPart_of_idle hs hv
  · exact absurd hr (hcmd w)
  · exact ⟨x, y, z, _, rfl, hostRest_subset _ s⟩

theorem cycles_outcomeKept {k : Nat} (hs : s.st = .idle) (hn : NoCommand prm s)
    (h : cycles prm k s = .next t) : OutcomeKept s t := by
  induction k generalizing s with
  | zero =>
    cases h
    exact ⟨_, _, _, _, rfl, fun _ => id⟩
  | succ k ih =>
    obtain ⟨u, hu, ht⟩ := andThen_eq_next.mp h
    have hk := cycle_outcomeKept hs hn hu
    exact hk.trans (ih (hk.st_eq.trans hs) (hk.noCommand hn) ht)

end

/-- Settles O17: a read and no access have the same host's part, so the two cycles differ in the environment. -/
theorem readsHaveNoSideEffect : Obligations.ReadsHaveNoSideEffect := by
  intro prm s t i h
  rw [cycle_of_resolve (s := hostDoes idlePins s) (a := .none) rfl rfl, runCycle_hostDoes, hostPart,
    andThen_next] at h
  obtain ⟨u, hu, ht⟩ := andThen_eq_next.mp h
  cases ht
  rw [cycle_of_resolve (s := hostDoes (readPins i) s) (a := .read i) rfl rfl, runCycle_hostDoes, hostPart,
    andThen_next, hu]
  rfl

/-- Settles O20: the window's whole words resolve to the port's accesses, and nothing else resolves. -/
theorem busAccessesAreWholeWords : Obligations.BusAccessesAreWholeWords := by
  intro prm s r v
  constructor
  · intro i
    have hb : busIndex prm (prm.base + 4 * i.toNat) 4 = some i := busIndex_eq_some_iff.mpr ⟨rfl, rfl⟩
    exact ⟨cycle_hostDoes_congr (a := .read i) s (by simp only [resolve, hb]) rfl,
      cycle_hostDoes_congr (a := .write i v) s (by simp only [resolve, hb]) rfl⟩
  · intro addr len h
    have hb := busIndex_eq_none h
    constructor <;> exact cycle_of_refused (by simp only [hostPins_hostDoes, resolve, hb])

/-- Settles O21: both strobes do not resolve to an access, with reset or without. -/
theorem bothStrobesHaveNoStep : Obligations.BothStrobesHaveNoStep :=
  fun _ _ _ _ _ => cycle_of_refused rfl

/-- Settles O22: the four lanes of the register read are the register. -/
theorem byteLanesAreLittleEndian : Obligations.ByteLanesAreLittleEndian :=
  fun prm s i => byteLane_append (readValue prm s i)

/-- Settles O44: by induction on the cycles, each of which writes at most the configuration. -/
theorem outcomeHoldsUntilTheNextCommand : Obligations.OutcomeHoldsUntilTheNextCommand := by
  intro prm k s t hs hn h
  obtain ⟨x, y, z, e, rfl, -⟩ := cycles_outcomeKept hs hn h
  exact ⟨hs, rfl, rfl, rfl, rfl, rfl, rfl, rfl, rfl, rfl⟩

/-- Settles O48: the host's part sets at most DROP, and the sequencer keeps the configuration. -/
theorem configurationIsFrozenWhileBusy : Obligations.ConfigurationIsFrozenWhileBusy := by
  intro prm s t hb hn h
  obtain ⟨a, hr, -⟩ := cycle_eq_next h
  obtain ⟨v, u, hv, hu, rfl⟩ := cycle_busy hr hn hb h
  obtain ⟨b, hd, -⟩ := hostPart_of_busy (a := a) hb
  cases hd.symm.trans hv
  have hk := seqStep_settings hu
  exact ⟨hk.timeoutMs, hk.warmupMs, hk.settleMs⟩

end Sys2Proof.Machine
end

section
/-! The opcode table from both sides (spec/30_encoding.md R70 to R78, R82): the fields of an encoded word, what
the decoder asks of the fields, and the round trip between a command and its word. -/

namespace Sys2Proof

/-- The COUNT a command's word carries, 0 for a command that has none (R73). -/
def countOf : Instr → BitVec 8
  | .nop => 0#8
  | .readRaw => 0#8
  | .average c => c
  | .sampleDc c => c
  | .sampleAc c => c
  | .setphOff => 0#8
  | .setphPos => 0#8
  | .setphNeg => 0#8

/-- The ARG a command's word carries: EXC or the phase, 0 for a command that has none (R72). -/
def argOf : Instr → BitVec 2
  | .nop => 0#2
  | .readRaw => 0#2
  | .average _ => 0#2
  | .sampleDc _ => 0#2
  | .sampleAc _ => 1#2
  | .setphOff => 0#2
  | .setphPos => 1#2
  | .setphNeg => 2#2

/-- A command with `c` as its COUNT, where it has one (R73). -/
def recount (c : BitVec 8) : Instr → Instr
  | .nop => .nop
  | .readRaw => .readRaw
  | .average _ => .average c
  | .sampleDc _ => .sampleDc c
  | .sampleAc _ => .sampleAc c
  | .setphOff => .setphOff
  | .setphPos => .setphPos
  | .setphNeg => .setphNeg

/-! ### The encoded word -/

/-- The encoder is R82 over the table's `match` column, for the commands without COUNT too. -/
theorem encode_eq_withCount (i : Instr) : encode i = withCount (tableMatch i) (countOf i) := by
  cases i <;> rfl

theorem argField_encode (i : Instr) : argField (encode i) = argOf i := by
  rw [encode_eq_withCount, argField_withCount]
  cases i <;> simp [argField, tableMatch, argOf]

theorem rsv0Field_encode (i : Instr) : rsv0Field (encode i) = 0#2 := by
  rw [encode_eq_withCount, rsv0Field_withCount]
  cases i <;> simp [rsv0Field, tableMatch]

theorem rsv1Field_encode (i : Instr) : rsv1Field (encode i) = 0#16 := by
  rw [encode_eq_withCount, rsv1Field_withCount]
  cases i <;> simp [rsv1Field, tableMatch]

theorem countField_encode (i : Instr) : countField (encode i) = countOf i := by
  rw [encode_eq_withCount]
  refine countField_withCount ?_ _
  cases i <;> simp [tableMatch]

/-- A word with the fields of a command is that command's word (R70, R77). -/
theorem encode_eq_of_fields {i : Instr} {w : Word} (ho : opField (encode i) = opField w)
    (ha : argField w = argOf i) (hc : countField w = countOf i)
    (h0 : rsv0Field w = 0#2) (h1 : rsv1Field w = 0#16) : encode i = w :=
  word_eq_of_fields ho ((argField_encode i).trans ha.symm) ((rsv0Field_encode i).trans h0.symm)
    ((countField_encode i).trans hc.symm) ((rsv1Field_encode i).trans h1.symm)

/-! ### The round trip -/

theorem decode_encode (i : Instr) : decode (encode i) = .cmd i := by
  have hr : ¬ (rsv1Field (encode i) ≠ 0#16 ∨ rsv0Field (encode i) ≠ 0#2) :=
    not_or.mpr ⟨not_not.mpr (rsv1Field_encode i), not_not.mpr (rsv0Field_encode i)⟩
  rw [decode, if_neg hr, opField_encode]
  cases i with
  | nop => rfl
  | readRaw => rfl
  | average c => simp [argField_encode, countField_encode, argOf, countOf]
  | sampleDc c => simp [decodeSample, argField_encode, countField_encode, argOf, countOf]
  | sampleAc c => simp [decodeSample, argField_encode, countField_encode, argOf, countOf]
  | setphOff => rfl
  | setphPos => rfl
  | setphNeg => rfl

section
variable {w : Word} {i : Instr}

/-- `decodePlain` answers its command for the words without ARG and COUNT (R72, R73). -/
theorem fields_of_decodePlain {j : Instr} (h : decodePlain w j = .cmd i) :
    j = i ∧ argField w = 0#2 ∧ countField w = 0#8 := by
  refine ⟨decodePlain_eq_cmd h, ?_⟩
  simp only [decodePlain] at h
  split_ifs at h with ha hc
  exact ⟨not_not.mp ha, not_not.mp hc⟩

/-- A word that decodes has its reserved bits clear (R74, R75). -/
theorem reserved_of_decode (h : decode w = .cmd i) : rsv1Field w = 0#16 ∧ rsv0Field w = 0#2 := by
  rw [decode] at h
  split_ifs at h with hr <;> simpa only [not_or, not_not] using hr

theorem fields_of_decodeSample (h : decodeSample w = .cmd i) :
    (argField w = 0#2 ∧ i = .sampleDc (countField w)) ∨
    (argField w = 1#2 ∧ i = .sampleAc (countField w)) := by
  simp only [decodeSample] at h
  split_ifs at h with h0 h1 <;> cases h
  · exact .inl ⟨h0, rfl⟩
  · exact .inr ⟨h1, rfl⟩

theorem fields_of_decodeSetPhase (h : decodeSetPhase w = .cmd i) : countField w = 0#8 ∧
    ((argField w = 0#2 ∧ i = .setphOff) ∨ (argField w = 1#2 ∧ i = .setphPos) ∨
     (argField w = 2#2 ∧ i = .setphNeg)) := by
  simp only [decodeSetPhase] at h
  split_ifs at h with hc h0 h1 h2 <;> cases h
  · exact ⟨not_not.mp hc, .inl ⟨h0, rfl⟩⟩
  · exact ⟨not_not.mp hc, .inr (.inl ⟨h1, rfl⟩)⟩
  · exact ⟨not_not.mp hc, .inr (.inr ⟨h2, rfl⟩)⟩

/-- No bit of a legal word is ignored: each branch of the decoder has read all five fields (R75). -/
theorem encode_of_decode (h : decode w = .cmd i) : encode i = w := by
  have ho := opField_of_decode h
  obtain ⟨hr1, hr0⟩ := reserved_of_decode h
  rw [decode] at h
  split_ifs at h with _ _ _ _ ha
  · obtain ⟨rfl, ha, hc⟩ := fields_of_decodePlain h
    exact encode_eq_of_fields ho ha hc hr0 hr1
  · obtain ⟨rfl, ha, hc⟩ := fields_of_decodePlain h
    exact encode_eq_of_fields ho ha hc hr0 hr1
  · cases h
    exact encode_eq_of_fields ho ha rfl hr0 hr1
  · obtain ⟨ha, rfl⟩ | ⟨ha, rfl⟩ := fields_of_decodeSample h <;>
      exact encode_eq_of_fields ho ha rfl hr0 hr1
  · obtain ⟨hc, ⟨ha, rfl⟩ | ⟨ha, rfl⟩ | ⟨ha, rfl⟩⟩ := fields_of_decodeSetPhase h <;>
      exact encode_eq_of_fields ho ha hc hr0 hr1

/-- The decoder and the encoder are inverse (R75, R77). -/
theorem decode_eq_cmd_iff : decode w = .cmd i ↔ encode i = w :=
  ⟨encode_of_decode, fun h => h ▸ decode_encode i⟩

end
end Sys2Proof

namespace Sys2Proof.Machine

/-- Settles O1: each command's own word has the fields the decoder asks for, with every COUNT. -/
theorem decodeOfEncodeIsTheCommand : Obligations.DecodeOfEncodeIsTheCommand :=
  decode_encode

/-- Settles O2: a decoded word has all five fields of its command's word, and they are the word. -/
theorem encodeOfDecodeIsTheWord : Obligations.EncodeOfDecodeIsTheWord :=
  fun _ _ => encode_of_decode

end Sys2Proof.Machine
end

section
/-! The mask and match table (spec/30_encoding.md R77) and the illegal words (R78). -/

namespace Sys2Proof

section
variable {w : Word} {i j : Instr}

/-- A command's word lies in its row (R77). -/
theorem encode_and_tableMask (i : Instr) : encode i &&& tableMask i = tableMatch i := by
  cases i with
  | nop => exact Laws.TableRow.nop
  | readRaw => exact Laws.TableRow.readRaw
  | average c => exact Laws.TableRow.average c
  | sampleDc c => exact Laws.TableRow.sampleDc c
  | sampleAc c => exact Laws.TableRow.sampleAc c
  | setphOff => exact Laws.TableRow.setphOff
  | setphPos => exact Laws.TableRow.setphPos
  | setphNeg => exact Laws.TableRow.setphNeg

/-- A row of the table has one mask and one match for every COUNT (R77). -/
theorem tableMask_recount (c : BitVec 8) (i : Instr) : tableMask (recount c i) = tableMask i := by
  cases i <;> rfl

theorem tableMatch_recount (c : BitVec 8) (i : Instr) :
    tableMatch (recount c i) = tableMatch i := by
  cases i <;> rfl

/-- A word is its bits outside COUNT with its COUNT put back (R70, R82). -/
theorem withCount_countField (w : Word) : withCount (w &&& 0xFFFF00FF#32) (countField w) = w := by
  apply BitVec.eq_of_getLsbD_eq
  intro k hk
  simp only [withCount, countField, BitVec.getLsbD_or, BitVec.getLsbD_and, BitVec.getLsbD_shiftLeft,
    BitVec.getLsbD_setWidth, BitVec.getLsbD_extractLsb']
  interval_cases k <;> simp

/-- A word in a command's row is the word of that command with the word's COUNT (R77). -/
theorem encode_recount_of_row (h : w &&& tableMask i = tableMatch i) :
    encode (recount (countField w) i) = w := by
  have plain : ∀ {m : Word}, w &&& 0xFFFFFFFF#32 = m → m = w :=
    fun hm => hm.symm.trans (BitVec.and_allOnes (x := w))
  have counted : ∀ {m : Word}, w &&& 0xFFFF00FF#32 = m → withCount m (countField w) = w :=
    fun hm => hm ▸ withCount_countField w
  cases i with
  | nop => exact plain h
  | readRaw => exact plain h
  | average c => exact counted h
  | sampleDc c => exact counted h
  | sampleAc c => exact counted h
  | setphOff => exact plain h
  | setphPos => exact plain h
  | setphNeg => exact plain h

/-- A row of R77: `(w and mask) == match` is what decoding to the row's command asks. -/
theorem decode_eq_recount_iff (w : Word) (i : Instr) :
    decode w = .cmd (recount (countField w) i) ↔ w &&& tableMask i = tableMatch i := by
  rw [decode_eq_cmd_iff]
  refine ⟨fun h => ?_, encode_recount_of_row⟩
  have hrow := encode_and_tableMask (recount (countField w) i)
  rwa [h, tableMask_recount, tableMatch_recount] at hrow

theorem row_of_decode (h : decode w = .cmd i) : w &&& tableMask i = tableMatch i :=
  encode_of_decode h ▸ encode_and_tableMask i

theorem countOf_of_decode (h : decode w = .cmd i) : countOf i = countField w := by
  rw [← encode_of_decode h, countField_encode]

/-- The illegal words are those in no row (R77, R78). -/
theorem illegal_iff_no_row :
    (∃ why, decode w = .illegal why) ↔ ∀ i, w &&& tableMask i ≠ tableMatch i := by
  constructor
  · rintro ⟨why, h⟩ i hrow
    rw [← decode_eq_recount_iff, h] at hrow
    cases hrow
  · intro hno
    cases hd : decode w with
    | illegal why => exact ⟨why, rfl⟩
    | cmd i => exact absurd (row_of_decode hd) (hno i)

/-- A word lies in one row only (R77: "The rows do not overlap"). -/
theorem rows_do_not_overlap (hi : w &&& tableMask i = tableMatch i)
    (hj : w &&& tableMask j = tableMatch j) : tableMatch i = tableMatch j := by
  have hij := ((decode_eq_recount_iff w i).mpr hi).symm.trans ((decode_eq_recount_iff w j).mpr hj)
  rw [← tableMatch_recount (countField w) i, Decoded.cmd.inj hij, tableMatch_recount]

/-! ### The illegal words, OP by OP -/

theorem decodePlain_illegal_iff :
    (∃ why, decodePlain w i = .illegal why) ↔ argField w ≠ 0#2 ∨ countField w ≠ 0#8 := by
  simp only [decodePlain]
  split_ifs with ha hc
  · simp [ha]
  · simp [hc]
  · simp [not_not.mp ha, not_not.mp hc]

theorem decodeSample_illegal_iff :
    (∃ why, decodeSample w = .illegal why) ↔ w.getLsbD 5 = true := by
  have h5 : w.getLsbD 5 = (argField w).getLsbD 1 := by simp [argField]
  have hset : ∀ a : BitVec 2, a ≠ 0#2 → a ≠ 1#2 → a.getLsbD 1 = true := by decide
  rw [h5, decodeSample]
  split_ifs with h0 h1
  · simp [h0]
  · simp [h1]
  · simp [hset _ h0 h1]

theorem decodeSetPhase_illegal_iff :
    (∃ why, decodeSetPhase w = .illegal why) ↔ argField w = 3#2 ∨ countField w ≠ 0#8 := by
  have hthree : ∀ a : BitVec 2, a ≠ 0#2 → a ≠ 1#2 → a ≠ 2#2 → a = 3#2 := by decide
  rw [decodeSetPhase]
  split_ifs with hc h0 h1 h2
  · simp [hc]
  · simp [h0, not_not.mp hc]
  · simp [h1, not_not.mp hc]
  · simp [h2, not_not.mp hc]
  · simp [hthree _ h0 h1 h2]

/-- The illegal words by their fields (R78). -/
theorem decode_illegal_iff (w : Word) : (∃ why, decode w = .illegal why) ↔
    (5 ≤ (opField w).toNat ∨ rsv0Field w ≠ 0#2 ∨ rsv1Field w ≠ 0#16 ∨
     (argField w ≠ 0#2 ∧ (opField w).toNat ≤ 2) ∨ (w.getLsbD 5 = true ∧ opField w = 3#4) ∨
     (argField w = 3#2 ∧ opField w = 4#4) ∨
     (countField w ≠ 0#8 ∧ (opField w = 0#4 ∨ opField w = 1#4 ∨ opField w = 4#4))) := by
  have hfive : ∀ o : BitVec 4, o ≠ 0#4 → o ≠ 1#4 → o ≠ 2#4 → o ≠ 3#4 → o ≠ 4#4 → 5 ≤ o.toNat := by
    decide
  rw [decode]
  by_cases hr : rsv1Field w ≠ 0#16 ∨ rsv0Field w ≠ 0#2
  · obtain h | h := hr <;> simp [h]
  rw [if_neg hr]
  obtain ⟨hr1, hr0⟩ := not_or.mp hr
  simp only [hr1, hr0, false_or]
  split_ifs with h0 h1 h2 ha h3 h4
  · rw [decodePlain_illegal_iff]
    simp [h0]
  · rw [decodePlain_illegal_iff]
    simp [h1]
  · simp [h2, ha]
  · simp [h2, ha]
  · rw [decodeSample_illegal_iff]
    simp [h3]
  · rw [decodeSetPhase_illegal_iff]
    simp [h4]
  · simp [hfive _ h0 h1 h2 h3 h4]

end
end Sys2Proof

namespace Sys2Proof.Machine

/-- Settles O3: every row is `decode_eq_recount_iff` at its command, and a word outside all rows decodes to no
command. -/
theorem decoderIsTheOpcodeTable : Obligations.DecoderIsTheOpcodeTable := by
  intro w
  have row := decode_eq_recount_iff w
  refine ⟨row .nop, row .readRaw, row (.average 0#8), row (.sampleDc 0#8), row (.sampleAc 0#8),
    row .setphOff, row .setphPos, row .setphNeg, fun i c h hi => ?_, illegal_iff_no_row,
    fun i j => rows_do_not_overlap⟩
  obtain rfl | rfl | rfl := hi <;> exact countOf_of_decode h

/-- Settles O4: the kinds of R78 by their fields, OP by OP. -/
theorem illegalWordsAreThoseListed : Obligations.IllegalWordsAreThoseListed :=
  decode_illegal_iff

/-- Settles O5: the legal words are those `encode` writes; the last two are illegal by evaluation. -/
theorem writtenOutWordsDecode : Obligations.WrittenOutWordsDecode :=
  ⟨decode_encode .nop, decode_encode .readRaw, decode_encode (.average 3#8),
    decode_encode (.sampleDc 255#8), decode_encode (.sampleAc 2#8), decode_encode .setphOff,
    decode_encode .setphPos, decode_encode .setphNeg, rfl, rfl⟩

end Sys2Proof.Machine
end

section
/-! Rejected words (spec/30_encoding.md R76, R78; spec/40_command.md R92) and `wait_idle` (R81). -/

namespace Sys2Proof.Machine

section
variable {prm : Params} {s t : State}

/-- A command whose parameters are bad ends at once with PARAM, its OP recorded (R76, R92). -/
theorem exec_of_bad_params {i : Instr} {o : BitVec 4} (hs : s.st = .idle) (ho : opField (encode i) = o)
    (hp : paramOk i s = false) : exec i s = .next { s with
      drop := false, op := o, valid := false, err := .param, result := sentinel } := by
  rw [exec_eq_issue, issue_of_bad _ hs hp, ← ho]
  rfl

/-- An illegal word written to CMD while idle is rejected with ILLEGAL (R78, R92). -/
theorem cmdWrite_illegal_of_idle {w : Word} {why : IllegalWord} (hs : s.st = .idle)
    (hd : decode w = .illegal why) : cmdWrite w s = .next (reject .illegal w s) := by
  simp only [cmdWrite, hd, illegalWrite_of_idle hs]

/-- The cycle of a CMD write while idle (R91). -/
theorem cycle_cmdWrite_of_idle {w : Word} (prm : Params) (hp : hostPins s = writePins idxCmd w)
    (hs : s.st = .idle) :
    cycle prm s = andThen (cmdWrite w s) fun v => .next (endCycle 0#32 false v) := by
  rw [cycle_of_resolve (a := .write idxCmd w) (by rw [hp]; rfl) (by rw [hp]; rfl), runCycle]
  simp only [if_pos hs, andThen_next]
  rfl

theorem envNext_congr (r : Word) (b : Bool) (h : t.env = s.env) : envNext r b t = envNext r b s := by
  simp only [envNext, hostRest, h]

/-- A cycle that reads lists the value read, moves the host on and keeps DROP (R53, R59, R90). -/
theorem cycle_read {i : BitVec 4} (hp : hostPins s = readPins i) (h : cycle prm s = .next t) :
    t.env = envNext (readValue prm s i) true s ∧ t.drop = s.drop := by
  obtain ⟨v, u, hv, hu, rfl⟩ := cycle_without_reset (a := .read i) (by rw [hp]; rfl) (by rw [hp]; rfl) h
  cases hv
  have kept : u.env = s.env ∧ u.drop = s.drop := by
    split_ifs at hu
    · cases hu
      exact ⟨rfl, rfl⟩
    · exact ⟨(seqStep_settings hu).env, (seqStep_settings hu).drop⟩
  exact ⟨envNext_congr _ _ kept.1, kept.2⟩

theorem hostPins_of_waitIdle {rest : List HostItem} (hh : s.env.host = .waitIdle :: rest) :
    hostPins s = readPins idxStatus := by
  simp only [hostPins, hh]

/-- `wait_idle` stays in the host's list while the STATUS it read has BUSY set (R23, R81). -/
theorem hostRest_of_waitIdle {rest : List HostItem} (hh : s.env.host = .waitIdle :: rest) :
    hostRest (statusWord prm s) s = if s.st = .idle then rest else .waitIdle :: rest := by
  have hb : (statusWord prm s).getLsbD 0 = busy s := statusWord_getLsbD prm s (by decide)
  simp only [hostRest, hh, hb, busy]
  by_cases hs : s.st = .idle <;> simp [hs]

end

/-- Settles O10: COUNT = 0 or TIMEOUT_MS = 0 makes `param_ok` false. -/
theorem badParametersAreRejected : Obligations.BadParametersAreRejected := by
  intro s c hs
  refine ⟨fun ht => exec_of_bad_params hs (opField_encode _) (by simp [paramOk, ht]), fun hbad => ?_⟩
  have hp : decide (c ≠ 0#8 ∧ s.timeoutMs ≠ 0#16) = false := by
    obtain h | h := hbad <;> simp [h]
  exact ⟨exec_of_bad_params hs (opField_encode _) hp, exec_of_bad_params hs (opField_encode _) hp,
    exec_of_bad_params hs (opField_encode _) hp⟩

/-- Settles O13: the cycle is the CMD write, and an illegal word's write is the rejection. -/
theorem illegalWordsAreRejected : Obligations.IllegalWordsAreRejected := by
  intro prm s w why hs hd
  have hs' : (hostDoes (writePins idxCmd w) s).st = .idle := hs
  rw [cycle_cmdWrite_of_idle prm (hostPins_hostDoes _ s) hs', cmdWrite_illegal_of_idle hs' hd]
  rfl

/-- Settles O26: each cycle of `wait_idle` reads STATUS, and bit 0 of the value read is BUSY. -/
theorem waitIdlePollsUntilIdle : Obligations.WaitIdlePollsUntilIdle := by
  intro prm s t rest hh h
  obtain ⟨he, hd⟩ := cycle_read (hostPins_of_waitIdle hh) h
  have hrest : t.env.host = if s.st = .idle then rest else .waitIdle :: rest := by
    rw [he]
    exact hostRest_of_waitIdle hh
  exact ⟨by rw [he]; rfl, by rw [he]; rfl, hd, fun hb => hrest.trans (if_neg hb),
    fun hs => hrest.trans (if_pos hs)⟩

end Sys2Proof.Machine
end

section
/-! The command words while idle and the ends of a burst by stage (spec/40_command.md R92, R98;
spec/42_averaging.md R142), what a command word leaves unchanged, and the cycle that runs a decoded word
(R79, R90). -/

namespace Sys2Proof.Machine

/-- A command whose parameters are good is accepted, its OP recorded, and starts (R76, R92). -/
theorem exec_of_good_params {i : Instr} {o : BitVec 4} {s : State} (hs : s.st = .idle)
    (ho : opField (encode i) = o) (hp : paramOk i s = true) : exec i s = .next (starts i { s with
      drop := false, op := o, valid := false, err := .none }) := by
  rw [exec_eq_issue, issue_of_ok _ hs hp, ← ho]
  rfl

/-- The table bits of a command's word are the word (R79). -/
theorem tableWord_encode (i : Instr) : tableWord 32 (encode i).toNat = encode i := by
  rw [tableWord, Nat.mod_eq_of_lt (encode i).isLt, BitVec.ofNat_toNat, BitVec.setWidth_eq]

/-- NOP and SETPH.* have no parameter, so they are never rejected while idle (R76). -/
theorem not_quiet_of_bad_params {i : Instr} {s : State} (hp : paramOk i s = false) :
    ¬ (i = .nop ∨ i = .setphOff ∨ i = .setphPos ∨ i = .setphNeg) := by
  rintro (rfl | rfl | rfl | rfl) <;> cases hp

/-- Settles O6: NOP has no parameter, and its start changes nothing. -/
theorem nopClearsTheFlags : Obligations.NopClearsTheFlags :=
  fun _ hs => exec_of_good_params hs (opField_encode .nop) rfl

/-- Settles O8: each of the three commands is accepted, and its start is `burst_start` in its stage. -/
theorem samplingCommandsStartABurst : Obligations.SamplingCommandsStartABurst := by
  intro s c hs ht
  exact ⟨exec_of_good_params hs (opField_encode .readRaw) (by simp [paramOk, ht]),
    fun hc => exec_of_good_params hs (opField_encode (.average c)) (by simp [paramOk, hc, ht]),
    fun hc => exec_of_good_params hs (opField_encode (.sampleDc c)) (by simp [paramOk, hc, ht])⟩

/-- Settles O9: SAMPLE_AC is accepted, and its start is the warm-up delay in phase Positive. -/
theorem sampleAcStartsTheWarmUp : Obligations.SampleAcStartsTheWarmUp :=
  fun _ c hs ht hc =>
    exec_of_good_params hs (opField_encode (.sampleAc c)) (by simp [paramOk, hc, ht])

/-- Settles O11: a dropped word writes DROP only, a rejected one the flags and RESULT, and an accepted one
the flags and what its command starts. -/
theorem commandsLeaveTheRestUnchanged : Obligations.CommandsLeaveTheRestUnchanged := by
  intro i s
  refine ⟨_, exec_eq_issue i s, ?_⟩
  obtain ⟨-, hv⟩ | ⟨hs, hp, hv⟩ | ⟨hs, hp, hv⟩ := issue_cases i (starts i) s <;> rw [hv]
  case inl => simp
  case inr.inl =>
    have hq := not_quiet_of_bad_params hp
    simp [hs, hp, hq]
  case inr.inr => cases i <;> simp [starts, hs, hp]

/-- Settles O12: a cycle runs the access it resolves, and a CMD write runs the command its word decodes to. -/
theorem stepRunsTheDecodedCommand : Obligations.StepRunsTheDecodedCommand := by
  constructor
  · intro s w i hp hd
    have hcmd : hostPart (.write idxCmd w) s = exec i s := by
      simp only [hostPart, hostWrite, if_true, cmdWrite, hd]
    rw [step, cycle_of_resolve (a := .write idxCmd w) (by rw [hp]; rfl) (by rw [hp]; rfl), runCycle, hcmd]
    rfl
  · intro s i
    rw [State.withFetchWord, hostPins_hostDoes, tableWord_encode]

/-- Settles O31: by its stage, the end of a burst is a completion, the start of SETN, or the fault. -/
theorem burstsEndByStage : Obligations.BurstsEndByStage := by
  intro s m
  refine ⟨fun h => ?single, fun h => ?dc, fun h => ?burp, fun h => ?burn, fun h => ?unreached⟩
  case single =>
    show burstDone m s = .next (completeOk m s)
    obtain h | h := h <;> simp only [burstDone, h]
  case dc =>
    show burstDone m s = .next (dcDone m s)
    simp only [burstDone, h]
  case burp =>
    show burstDone m s = .next (burpDone m s)
    simp only [burstDone, h]
  case burn =>
    show burstDone m s = .next (burnDone m s)
    simp only [burstDone, h]
  case unreached => obtain h | h | h := h <;> simp only [burstDone, h]

end Sys2Proof.Machine
end

section
/-! Writes to the registers, idle and busy (spec/40_command.md R94 to R97): each cycle is the one without the
write, but for what the host's part of it does. -/

namespace Sys2Proof.Machine

/-- A cycle without reset, from the state without its access (R90). -/
theorem cycle_hostDoes {prm : Params} {q : HostPins} {a : PortOp} (s : State)
    (hr : resolve prm q.access = .ok a) (hn : q.rst = false) :
    cycle prm (hostDoes q s) = andThen (hostPart a s) fun v =>
      andThen (if s.st = .idle then .next v else seqStep prm (doutNow prm s) (tickNow prm s) v)
        fun u => .next { u with
          env := envNext (portRead prm s a) (isRead a) (hostDoes idlePins s) } :=
  (cycle_of_resolve (s := hostDoes q s) hr hn).trans (runCycle_hostDoes prm a q s)

/-- A write to the configuration while idle is stored, and the cycle changes nothing else (R95). -/
theorem cycle_config_of_idle {prm : Params} {s : State} {i : BitVec 4} (w : Word) (hs : s.st = .idle)
    (h0 : i ≠ idxCmd) (hc : isConfig i = true) :
    cycle prm (hostDoes (writePins i w) s) = .next { cfgWrite i w s with
      env := envNext 0#32 false (hostDoes idlePins s) } := by
  rw [cycle_hostDoes (a := .write i w) s rfl rfl]
  simp only [hostPart, hostWrite, if_neg h0, regWrite, if_pos hc, if_pos hs, andThen_next]
  rfl

/-- Settles O14: the write is `cfg_write`, which the register reads back. -/
theorem configurationWritesAreStored : Obligations.ConfigurationWritesAreStored := by
  intro prm s w hs
  exact ⟨⟨_, cycle_config_of_idle w hs (by decide) (by decide), rfl, rfl⟩,
    ⟨_, cycle_config_of_idle w hs (by decide) (by decide), rfl, rfl⟩,
    ⟨_, cycle_config_of_idle w hs (by decide) (by decide), rfl, rfl⟩⟩

/-- Settles O15: the dropped write sets DROP before the sequencer's step, which neither reads nor writes it
and keeps the configuration. -/
theorem busyWritesOnlySetDrop : Obligations.BusyWritesOnlySetDrop := by
  intro prm s t i w hb hi h
  rw [cycle_hostDoes (a := .none) s rfl rfl, hostPart, andThen_next, if_neg hb] at h
  obtain ⟨u, hu, ht⟩ := andThen_eq_next.mp h
  cases ht
  have hk := seqStep_settings hu
  refine ⟨?_, hk.timeoutMs, hk.warmupMs, hk.settleMs⟩
  rw [cycle_hostDoes (a := .write i w) s rfl rfl, hostPart_dropped w hb hi, andThen_next, if_neg hb,
    show dropWrite s = setOuter true s.env s from rfl, seqStep_outer, hu]
  rfl

/-- Settles O16: such a write and no access have the same host's part. -/
theorem readOnlyWritesHaveNoEffect : Obligations.ReadOnlyWritesHaveNoEffect := by
  intro prm s i w hi
  have unwritten : ∀ i' w', PortOp.write i w = .write i' w' →
      ¬ (i' = 0#4 ∨ i' = 6#4 ∨ i' = 7#4 ∨ i' = 8#4) := by
    rintro _ _ ⟨⟩ (rfl | rfl | rfl | rfl) <;> exact absurd hi (by decide)
  rw [cycle_hostDoes (a := .write i w) s rfl rfl, cycle_hostDoes (a := .none) s rfl rfl,
    hostPart_inert unwritten]
  rfl

end Sys2Proof.Machine
end

section
/-! A running command against the host (spec/40_command.md R94, R96, R99), and its timeout
(spec/41_transport.md R114). -/

namespace Sys2Proof.Machine

section
variable {prm : Params} {s t : State}

/-- The inputs of the next `k` cycles. -/
def inputs (prm : Params) (s : State) (k : Nat) : List (Bool × Bool) :=
  (List.range k).map (inputAt prm s)

@[simp] theorem inputs_length (prm : Params) (s : State) (k : Nat) : (inputs prm s k).length = k := by
  simp [inputs]

theorem inputs_getElem? (prm : Params) (s : State) {j k : Nat} (hj : j < k) :
    (inputs prm s k)[j]? = some (inputAt prm s j) := by
  simp [inputs, hj]

theorem inputs_succ {k : Nat} (h : ∀ j, inputAt prm t j = inputAt prm s (j + 1)) :
    inputs prm s (k + 1) = inputAt prm s 0 :: inputs prm t k := by
  simp [inputs, List.range_succ_eq_map, Function.comp_def, h]

/-- The first cycle of a running command under a calm host made the sequencer's step. -/
theorem seqStep_of_cycle {v : State} (hc : Calm prm s) (hb : s.st ≠ .idle) (h : cycle prm s = .next v) :
    ∃ u, seqStep prm (inputAt prm s 0).1 (inputAt prm s 0).2 s = .next u := by
  obtain ⟨b, e, hcy, -⟩ := cycle_of_calm hc hb
  obtain ⟨u, hu, -⟩ := andThen_eq_next.mp (hcy.symm.trans h)
  exact ⟨u, by rwa [inputAt_zero]⟩

/-- Cycles of a running command under a calm host made the sequencer's run on the coming levels: the converse
of `cycles_of_inputs`. -/
theorem seqRun_of_cycles {k : Nat} (hc : Calm prm s)
    (hb : ∀ j < k, ∀ u, cycles prm j s = .next u → u.st ≠ .idle) (h : cycles prm k s = .next t) :
    ∃ u, seqRun prm (inputs prm s k) s = some u ∧ sequencerPart t = sequencerPart u := by
  induction k generalizing s with
  | zero =>
    cases h
    exact ⟨t, rfl, rfl⟩
  | succ k ih =>
    obtain ⟨v, hv, ht⟩ := andThen_eq_next.mp h
    have hs : s.st ≠ .idle := hb 0 (Nat.succ_pos k) s rfl
    obtain ⟨v', hq⟩ := seqStep_of_cycle hc hs hv
    obtain ⟨b, e, hcy, hcalm, hin, -⟩ := cycle_of_inputs hc hs hq
    cases hv.symm.trans hcy
    obtain ⟨u, hu, hp⟩ := ih hcalm
      (fun j hj w hw => hb (j + 1) (by omega) w (by simpa [cycles, hcy] using hw)) ht
    refine ⟨setOuter v'.drop v'.env u, ?_, hp⟩
    rw [inputs_succ hin, seqRun_cons hs hq]
    exact seqRun_outer (s := setOuter b e v') v'.drop v'.env hu

/-- The last tick of a ready wait in which `dout` stays high ends the command with TIMEOUT (R113, R114). -/
theorem seqRun_timeout {ticks : List Bool} (hs : s.st = .rw)
    (ht : ticks.count true + 1 = s.tmo.toNat) :
    seqRun prm (ticks.map (true, ·) ++ [(true, true)]) s =
      some (completeErr .timeout { s with tmo := 1#16 }) := by
  have hsnd : (ticks.map (true, ·)).map Prod.snd = ticks := by simp [Function.comp_def]
  have hlast : s.tmo - BitVec.ofNat 16 (ticks.count true) = 1#16 := by
    have := s.tmo.isLt
    bv_omega
  have hwait := seqRun_wait (prm := prm) (xs := ticks.map (true, ·)) hs (by simp) (by rw [hsnd]; omega)
  rw [hsnd, hlast] at hwait
  rw [seqRun_append hwait, seqRun_cons (s := { s with tmo := 1#16 }) (by simp [hs]) (seqStep_of_rw hs)]
  rfl

end

/-- Settles O43: both runs are the sequencer's run on the same levels, which does not depend on DROP and the
environment. -/
theorem hostCannotDisturbARunningCommand : Obligations.HostCannotDisturbARunningCommand := by
  intro prm s h₁ h₂ d₁ d₂ k t hc₁ hc₂ hb h
  obtain ⟨u, hu, hp⟩ := seqRun_of_cycles hc₁ hb h
  have hu₂ := seqRun_outer (s := setOuter d₁ { s.env with host := h₁ } s) d₂
    { s.env with host := h₂ } hu
  obtain ⟨b, e, hcy, -⟩ := cycles_of_inputs hc₂
    (fun j hj => inputs_getElem? prm _ (by simpa using hj)) hu₂
  rw [inputs_length] at hcy
  exact ⟨_, hcy, hp.symm⟩

/-- Settles O51: the ready wait uses up all ticks but the last, and the last ends the command. -/
theorem timeoutEndsTheCommand : Obligations.TimeoutEndsTheCommand := by
  intro prm s ticks rd rt hc hs hticks hdout htick
  have hrun := seqRun_timeout (prm := prm) hs hticks
  have hd : s.env.dout = (ticks.map (true, ·) ++ [(true, true)]).map Prod.fst ++ rd := by
    simp [hdout, Function.comp_def, List.replicate_succ']
  have ht : s.env.tick = (ticks.map (true, ·) ++ [(true, true)]).map Prod.snd ++ rt := by
    simp [htick, Function.comp_def]
  obtain ⟨b, e, hcy, -⟩ := cycles_of_seqRun hc hd ht hrun
  have hl := levels_of_seqRun (f := busy) (fun _ _ _ => rfl) hc hd ht hrun
  rw [seqLevels_busy hrun] at hl
  simp only [List.length_append, List.length_map, List.length_singleton] at hcy hl
  refine ⟨_, hcy, hl, rfl, rfl, rfl, rfl, rfl, rfl, rfl, rfl, rfl, fun hg => ?_, fun hg => ?_⟩
  · exact if_pos (stageOfAc_eq_true_iff.mpr hg)
  · refine if_neg ?_
    obtain hg | hg | hg := hg <;> simp [hg, stageOfAc]

end Sys2Proof.Machine
end

section
/-! The fixup (spec/41_transport.md R119, R120), bit by bit and as a number. -/

namespace Sys2Proof.Machine

section
variable (sh : Sample)

/-- The fixup inverts the top bit and keeps the others (R119). -/
theorem getLsbD_fixup (j : Nat) :
    (fixup sh).getLsbD j = if j = 23 then !sh.getLsbD j else sh.getLsbD j := by
  have hmask : (0x800000#24).getLsbD j = decide (j = 23) := by
    rw [show 0x800000#24 = BitVec.twoPow 24 23 from rfl, BitVec.getLsbD_twoPow]
    simp [eq_comm]
  rw [fixup, BitVec.getLsbD_xor, hmask]
  split_ifs with h <;> simp [h]

/-- The fixup inverts the top bit of the first byte (R119). -/
theorem fixup_eq_bytes :
    fixup sh = (arrivalByte sh 0 ^^^ 0x80#8) ++ arrivalByte sh 1 ++ arrivalByte sh 2 := by
  apply BitVec.eq_of_getLsbD_eq
  intro j hj
  rw [getLsbD_fixup]
  change _ = BitVec.getLsbD (w := 8 + 8 + 8) _ j
  simp only [arrivalByte, BitVec.getLsbD_append, BitVec.getLsbD_xor, BitVec.getLsbD_extractLsb']
  interval_cases j <;> simp

/-- Inverting the top bit adds half the range (R120). -/
theorem fixup_eq_add : fixup sh = 0x800000#24 + sh := by
  apply BitVec.eq_of_getLsbD_eq
  intro j hj
  rw [getLsbD_fixup, BitVec.getLsbD, BitVec.getLsbD, BitVec.toNat_add, Nat.testBit_mod_two_pow,
    decide_eq_true hj, Bool.true_and]
  change _ = (2 ^ 23 + sh.toNat).testBit j
  split_ifs with h
  · rw [h, Nat.testBit_two_pow_add_eq]
  · rw [Nat.testBit_two_pow_add_gt (by omega)]

/-- The raw sample is the two's-complement value offset by `2^23` (R120). -/
theorem toNat_fixup : ((fixup sh).toNat : Int) = sh.toInt + 2 ^ 23 := by
  have hlt := sh.isLt
  rw [fixup_eq_add, BitVec.toNat_add, BitVec.toInt_eq_toNat_cond, show (0x800000#24).toNat = 2 ^ 23 from rfl]
  omega

end

/-- Settles O34: the fixup bit by bit, and its three bytes. -/
theorem fixupFlipsTheTopBit : Obligations.FixupFlipsTheTopBit :=
  fun sh => ⟨rfl, fixup_eq_bytes sh, fun j _ => getLsbD_fixup sh j⟩

/-- Settles O35: a 24-bit word offset by half its range. -/
theorem rawSampleIsTheOffsetValue : Obligations.RawSampleIsTheOffsetValue := by
  intro sh
  rw [toNat_zext32]
  exact ⟨(fixup sh).isLt, toNat_fixup sh⟩

end Sys2Proof.Machine
end

section
/-! The steps of a transaction (spec/41_transport.md R113 to R121), the two ways a running command ends
(spec/40_command.md R100) and the end of a transaction (spec/42_averaging.md R141, R143). -/

namespace Sys2Proof.Machine

section
variable {prm : Params} {s u : State}

/-- A command has completed, successfully or with TIMEOUT (R100). -/
def Completed (u : State) : Prop :=
  u.valid = true ∧ u.err = .none ∨ u.valid = false ∧ u.err = .timeout ∧ u.result = sentinel

/-- The end of a delay starts the next step of the sequence; it ends no command (R167, R168, R170). -/
theorem delayDone_busy (h : delayDone s = .next u) : u.st ≠ .idle := by
  cases hg : s.stage <;> simp only [delayDone, hg] at h <;> cases h <;> simp

/-- The end of a burst completes the command, or starts the Negative settle delay (R142). -/
theorem burstDone_completed {m : Word} (h : burstDone m s = .next u) (hu : u.st = .idle) :
    Completed u := by
  cases hg : s.stage <;> simp only [burstDone, hg] at h <;> cases h
  case burp => cases hu
  all_goals exact .inl ⟨rfl, rfl⟩

theorem transactionDone_completed {x : Sample} (h : transactionDone x s = .next u)
    (hu : u.st = .idle) : Completed u := by
  simp only [transactionDone, burstContinue] at h
  split_ifs at h
  · cases h
    cases hu
  · exact burstDone_completed h hu

/-- A step of the sequencer that ends a running command completes it (R93, R100). -/
theorem seqStep_completed {d t : Bool} (hb : s.st ≠ .idle) (h : seqStep prm d t s = .next u)
    (hu : u.st = .idle) : Completed u := by
  cases hs : s.st with
  | idle => exact absurd hs hb
  | delay =>
    rw [seqStep_of_delay hs, delayStep] at h
    split_ifs at h
    · exact absurd hu (delayDone_busy h)
    all_goals
      cases h
      exact absurd hu hb
  | rw =>
    rw [seqStep_of_rw hs] at h
    cases h
    simp only [rwStep] at hu ⊢
    split_ifs at hu ⊢
    · exact .inr ⟨rfl, rfl, rfl⟩
    all_goals exact absurd hu hb
  | hi =>
    rw [seqStep_of_hi hs] at h
    cases h
    simp only [hiStep] at hu
    split_ifs at hu
    exact absurd hu hb
  | lo =>
    rw [seqStep_of_lo hs, loStep] at h
    split_ifs at h
    · cases h
      exact absurd hu hb
    · cases h
      cases hu
    · exact transactionDone_completed h hu

/-- The divider is the division of the numbers (R143). -/
theorem toNat_floorMean (a : Word) (n : BitVec 8) : (floorMean a n).toNat = a.toNat / n.toNat := by
  rw [floorMean, BitVec.toNat_udiv, BitVec.toNat_setWidth, Nat.mod_eq_of_lt (by omega)]

end

/-- Settles O27: the branches of the ready wait, the two completions, and the steps that reach one. -/
theorem readyWaitPollsThenCounts : Obligations.ReadyWaitPollsThenCounts := by
  intro prm s
  refine ⟨fun hs tick => ?wait, fun _ => rfl, ?error, fun dout tick u hb h hu => ?ends,
    fun a u hb h => ?host⟩
  case wait =>
    simp only [seqStep_of_rw hs]
    refine ⟨rfl, fun h => ?_, fun h => ?_, rfl⟩ <;> simp [rwStep, h]
  case error => simp only [completeErr, stageOfAc_eq_true_iff, sentinel]
  case ends =>
    have hk := seqStep_settings h
    exact ⟨seqStep_completed hb h hu, hk.drop, hk.op,
      (statusWord_getLsbD prm u (by decide)).trans (by simp [busy, hu])⟩
  case host =>
    obtain ⟨b, hv, hd⟩ := hostPart_of_busy (a := a) hb
    cases hv.symm.trans h
    cases b with
    | true => exact .inr rfl
    | false =>
      have hdrop : s.drop = false := Bool.eq_false_iff.mpr fun h => absurd (hd h) (by decide)
      exact .inl (by rw [← hdrop, setOuter_self])

/-- Settles O28: the last high cycle writes bit `23 - p`, or none in pulse 24. -/
theorem highPhaseSamplesInItsLastCycle : Obligations.HighPhaseSamplesInItsLastCycle := by
  intro prm s dout tick hs
  rw [seqStep_of_hi hs, hiStep]
  refine ⟨fun hc => by rw [if_pos hc], fun hc => ?_⟩
  rw [if_neg (Nat.not_lt.mpr hc)]
  refine ⟨_, rfl, rfl, fun j hj => ?_⟩
  by_cases hp : s.p.toNat ≤ 23
  · simp only [if_pos hp, getLsbD_sampleBit _ _ hj, show j = 23 - s.p.toNat ↔ j + s.p.toNat = 23 by omega]
  · simp only [if_neg hp, if_neg (show ¬ j + s.p.toNat = 23 by omega)]

/-- Settles O29: the three branches of the low phase. -/
theorem lowPhaseEndsThePulse : Obligations.LowPhaseEndsThePulse := by
  intro prm s dout tick hs
  rw [seqStep_of_lo hs, loStep]
  exact ⟨fun hc => if_pos hc, fun hc hp => by rw [if_neg (Nat.not_lt.mpr hc), if_pos hp],
    fun hc hp => by rw [if_neg (Nat.not_lt.mpr hc), if_neg (Nat.not_lt.mpr hp), fixup]⟩

/-- Settles O30: a transaction that is not the last starts the next one, and the last divides the sum. -/
theorem transactionsAccumulate : Obligations.TransactionsAccumulate := by
  intro s x
  exact ⟨fun h => transactionDone_more h, fun h hn =>
    ⟨_, toNat_floorMean _ _, transactionDone_last (Nat.not_lt.mpr h) hn⟩⟩

end Sys2Proof.Machine
end

section
/-! A whole transaction under a calm host (spec/41_transport.md R111 to R126): its waveform, what it shifts in
and hands on, and READ_RAW, which is one of them. -/

namespace Sys2Proof.Machine

section
variable {prm : Params} {g : Bool → Phase → Bool} {s u : State}

/-- One pulse of a level that `sck` and the phase determine: `H` cycles high, `L` cycles low (R111). -/
def pulseLevels (g : Bool → Phase → Bool) (prm : Params) (f : Phase) : List Bool :=
  List.replicate prm.H (g true f) ++ List.replicate prm.L (g false f)

/-- `m + 1` pulses from pulse `p ≤ 24 - m`, the phase as it is (R115 to R117). -/
theorem seqLevels_pulses (m : Nat) {zs : List (Bool × Bool)} (hs : s.st = .hi) (hc : s.c = prm.H)
    (hk : s.sck = true) (hp : s.p.toNat + m ≤ 24) (hl : zs.length = (m + 1) * (prm.H + prm.L)) :
    seqLevels (lineLevel g) prm zs s =
      (List.replicate (m + 1) (pulseLevels g prm s.phase)).flatten := by
  induction m generalizing zs s with
  | zero => simpa [pulseLevels] using seqLevels_pulse (g := g) hs hc hk (by simpa using hl)
  | succ m ih =>
    have hH := prm.H_pos
    rw [Nat.succ_mul] at hl
    have hfirst : (zs.take (prm.H + prm.L)).length = prm.H + prm.L := by
      rw [List.length_take]
      omega
    have hp1 : (s.p + 1#5).toNat = s.p.toNat + 1 := by bv_omega
    have hrun := seqRun_pulse hs hc (by omega) hfirst
      (List.getElem?_eq_getElem (show prm.H - 1 < (zs.take (prm.H + prm.L)).length by omega))
    have hcut := seqLevels_append (f := lineLevel g) (ys := zs.drop (prm.H + prm.L)) hrun
    rw [List.take_append_drop, seqLevels_pulse hs hc hk hfirst] at hcut
    rw [hcut, ih]
    · rfl
    · rfl
    · rfl
    · rfl
    · rw [hp1]
      omega
    · rw [List.length_drop]
      omega

/-- The lines from the ready cycle on: one more cycle as they are, then 25 pulses (R113, R117). -/
theorem seqLevels_shift {r : Bool × Bool} {zs : List (Bool × Bool)} (hs : s.st = .rw)
    (hr : r.1 = false) (hl : zs.length = 25 * (prm.H + prm.L)) :
    seqLevels (lineLevel g) prm (r :: zs) s =
      lineLevel g s :: (List.replicate 25 (pulseLevels g prm s.phase)).flatten := by
  have hq : seqStep prm r.1 r.2 s =
      .next { s with st := .hi, p := 0#5, c := prm.H, sck := true } := by
    rw [seqStep_of_rw hs, hr]
    rfl
  rw [seqLevels_cons hq, seqLevels_pulses 24 rfl rfl rfl (by simp) hl]

/-- The lines along a transaction: as they are in the ready wait, then 25 pulses (R113, R117). -/
theorem seqLevels_transfer {x : Transfer} (hs : s.st = .rw) (h : TransferOk prm s.tmo.toNat x) :
    seqLevels (lineLevel g) prm (transferInputs x) s =
      List.replicate (x.wait + 1) (lineLevel g s) ++
        (List.replicate 25 (pulseLevels g prm s.phase)).flatten := by
  obtain ⟨ws, r, zs, hx, hws, hwl, hcount, hr, hzl, -⟩ := transferInputs_parts h
  rw [hx, seqLevels_append (seqRun_wait hs hws hcount), seqLevels_wait hs hws hcount,
    seqLevels_shift (by simpa using hs) hr hzl, hwl, List.replicate_succ' (n := x.wait),
    List.append_assoc]
  rfl

/-- The end of a burst is a next state in the stages that have one (R142), and writes neither RAW nor the
shift register. -/
theorem burstDone_of_stage (m : Word) (hg : stageHasBurst s.stage = true) :
    ∃ u, burstDone m s = .next u ∧ u.raw = s.raw ∧ u.sh = s.sh := by
  cases h : s.stage <;> simp only [burstDone, h]
  case warm => simp [h, stageHasBurst] at hg
  case setp => simp [h, stageHasBurst] at hg
  case setn => simp [h, stageHasBurst] at hg
  all_goals exact ⟨_, rfl, rfl, rfl⟩

/-- The end of a transaction is a next state, with the sample in RAW and the shift register kept (R121). -/
theorem transactionDone_of_stage (x : Sample) (hg : stageHasBurst s.stage = true) (hn : s.n ≠ 0#8) :
    ∃ u, transactionDone x s = .next u ∧ u.raw = zext32 x ∧ u.sh = s.sh := by
  by_cases hk : s.k.toNat + 1 < s.n.toNat
  · exact ⟨_, transactionDone_more hk, rfl, rfl⟩
  · rw [transactionDone_last hk hn]
    exact burstDone_of_stage _ hg

/-- A whole transaction in a stage that has a burst ends in `transaction_done` of the chip's word (R112 to
R124). -/
theorem seqRun_transfer_of_stage {x : Transfer} (hs : s.st = .rw) (hg : stageHasBurst s.stage = true)
    (hn : s.n ≠ 0#8) (h : TransferOk prm s.tmo.toNat x) :
    ∃ tm u, seqRun prm (transferInputs x) s = some u ∧
      transactionDone (fixup x.word)
        { s with st := .lo, sck := false, p := 24#5, c := 1, sh := x.word, tmo := tm } = .next u ∧
      u.raw = zext32 (fixup x.word) ∧ u.sh = x.word := by
  obtain ⟨tm, hrun⟩ := seqRun_transfer hs h
  obtain ⟨u, hu, hraw, hsh⟩ := transactionDone_of_stage (fixup x.word)
    (s := { s with st := .lo, sck := false, p := 24#5, c := 1, sh := x.word, tmo := tm }) hg hn
  rw [hu] at hrun
  exact ⟨tm, u, hrun, hu, hraw, hsh⟩

/-- The last transaction of READ_RAW and of AVERAGE completes the command with the mean (R142). -/
theorem transactionDone_single {x : Sample} (hk : s.n.toNat ≤ s.k.toNat + 1) (hn : s.n ≠ 0#8)
    (hg : s.stage = .raws ∨ s.stage = .avg) :
    transactionDone x s = .next (completeOk (floorMean (s.acc + zext32 x) s.n)
      { s with raw := zext32 x, acc := s.acc + zext32 x }) := by
  rw [transactionDone_last (Nat.not_lt.mpr hk) hn]
  obtain hg | hg := hg <;> simp only [burstDone, hg]

/-- Fewer ticks than the timeout leave no timeout of 0 (R76, R124). -/
theorem TransferOk.timeout_ne_zero {t : BitVec 16} {x : Transfer} (h : TransferOk prm t.toNat x) :
    t ≠ 0#16 := by
  rintro rfl
  exact absurd h.in_time (Nat.not_lt_zero _)

/-- READ_RAW is one transaction, and the mean of its one sample is the sample (R123, R125). -/
theorem seqRun_readRaw {x : Transfer} (hs : s.st = .rw) (hg : s.stage = .raws) (hn : s.n = 1#8)
    (hk : s.k = 0#8) (ha : s.acc = 0#32) (h : TransferOk prm s.tmo.toNat x) :
    ∃ tm, seqRun prm (transferInputs x) s = some (completeOk (zext32 (fixup x.word)) { s with
      st := .lo, sck := false, p := 24#5, c := 1, sh := x.word, tmo := tm,
      raw := zext32 (fixup x.word), acc := zext32 (fixup x.word) }) := by
  obtain ⟨tm, u, hrun, hu, -⟩ := seqRun_transfer_of_stage hs (by simp [hg, stageHasBurst])
    (by simp [hn]) h
  have hmean : floorMean (zext32 (fixup x.word)) 1#8 = zext32 (fixup x.word) :=
    BitVec.eq_of_toNat_eq (by simp [floorMean])
  cases hu.symm.trans (transactionDone_single (by simp [hn, hk]) (by simp [hn]) (.inl hg))
  refine ⟨tm, ?_⟩
  simp only [hrun, hn, ha, BitVec.zero_add, hmean]

end

/-- Settles O50: the waveform is the levels of `sck` along the sequencer's run of the transaction. -/
theorem sckHasTwentyFivePulses : Obligations.SckHasTwentyFivePulses := by
  intro prm s x rd rt hc hs hk hg hn hx hd ht
  obtain ⟨-, u, hrun, -⟩ := seqRun_transfer_of_stage hs hg hn hx
  rw [← transferInputs_dout hx] at hd
  rw [← transferInputs_tick hx] at ht
  have hl := levels_of_seqRun (f := lineLevel fun b _ => b) (fun _ _ _ => rfl) hc hd ht hrun
  rw [transferInputs_length hx, seqLevels_transfer hs hx, lineLevel, hk] at hl
  exact hl

/-- Settles O49: the sequencer's run of the transaction ends in `transaction_done` of the chip's word. -/
theorem transactionsShiftTheChipWord : Obligations.TransactionsShiftTheChipWord := by
  intro prm s x rd rt hc hs hg hn hx hd ht
  obtain ⟨tm, u, hrun, hu, hraw, hsh⟩ := seqRun_transfer_of_stage hs hg hn hx
  rw [← transferInputs_dout hx] at hd
  rw [← transferInputs_tick hx] at ht
  obtain ⟨b, e, hcy, -, hed, het, -⟩ := cycles_of_seqRun hc hd ht hrun
  have hl := levels_of_seqRun (f := busy) (fun _ _ _ => rfl) hc hd ht hrun
  rw [seqLevels_busy hrun, transferInputs_length hx] at hl
  rw [transferInputs_length hx] at hcy
  refine ⟨_, hcy, hl, hraw, hsh, hed, het, fun hk => ?more, fun hk hst => ?last⟩
  case more =>
    cases hu.symm.trans (transactionDone_more hk)
    exact ⟨rfl, rfl, rfl, rfl, rfl, rfl, rfl, rfl, rfl, rfl, rfl, rfl⟩
  case last =>
    cases hu.symm.trans (transactionDone_single hk hn hst)
    exact ⟨rfl, rfl, rfl, rfl, rfl, rfl, rfl⟩

/-- Settles O54: the accepted word starts the run of `seqRun_readRaw` in the next cycle. -/
theorem readRawReturnsTheSample : Obligations.ReadRawReturnsTheSample := by
  intro prm s x h hx
  have he := (samplingCommandsStartABurst s 1#8 h.idle hx.timeout_ne_zero).1
  obtain ⟨tm, hrun⟩ := seqRun_readRaw (prm := prm) (x := x) (s := { s with
    drop := false, op := 1#4, valid := false, err := .none, stage := .raws,
    n := 1#8, acc := 0#32, k := 0#8, st := .rw, tmo := s.timeoutMs }) rfl rfl rfl rfl rfl hx
  rw [← transferInputs_dout hx, ← transferInputs_tick hx] at h
  obtain ⟨b, e, hcy, hl⟩ := launched_run h (decode_encode .readRaw) he rfl hrun
  have hlb := hl busy (fun _ _ _ => rfl)
  rw [seqLevels_busy hrun, transferInputs_length hx, show busy s = false by simp [busy, h.idle]] at hlb
  rw [transferInputs_length hx] at hcy
  exact ⟨_, hcy, hlb, rfl, rfl, rfl, rfl, rfl, rfl, rfl, rfl, rfl⟩

end Sys2Proof.Machine
end

section
/-! The accumulator and the model's faults under the invariant (spec/42_averaging.md R142 to R144;
spec/60_exceptions.md R190). -/

namespace Sys2Proof.Machine

/-- A sample added to an accumulator of `k < 255` samples is added exactly (R144). -/
theorem toNat_acc_add_sample {a : Word} {k : Nat} (x : Sample) (hk : k < 255)
    (ha : a.toNat ≤ k * (2 ^ 24 - 1)) : (a + zext32 x).toNat = a.toNat + x.toNat := by
  have hx := x.isLt
  rw [BitVec.toNat_add, toNat_zext32, Nat.mod_eq_of_lt (by omega)]

/-- The host's part of a cycle answers a next state for every access the block admits (R91). -/
theorem hostPart_eq_next (a : PortOp) (s : State) : ∃ v, hostPart a s = .next v := by
  cases a with
  | none => exact ⟨s, rfl⟩
  | read i => exact ⟨s, rfl⟩
  | write i w =>
    by_cases hi : i = idxCmd
    · simp only [hostPart, hostWrite, if_pos hi, cmdWrite]
      cases decode w with
      | illegal why => exact ⟨_, rfl⟩
      | cmd j => exact ⟨_, exec_eq_issue j s⟩
    · exact ⟨regWrite i w s, by simp only [hostPart, hostWrite, if_neg hi]⟩

/-- The end of a delay is a next state in the stages that have one (R166). -/
theorem delayDone_of_stage {s : State} (hg : stageHasBurst s.stage = false) :
    ∃ u, delayDone s = .next u := by
  cases h : s.stage <;> simp only [delayDone, h]
  case warm => exact ⟨_, rfl⟩
  case setp => exact ⟨_, rfl⟩
  case setn => exact ⟨_, rfl⟩
  all_goals simp [h, stageHasBurst] at hg

/-- Under the invariant the sequencer's step answers a next state: delays and bursts end only in stages that
have them, and the divisor is not 0 (R142, R143, R166). -/
theorem seqStep_eq_next {prm : Params} {s : State} (d t : Bool) (hi : Inv prm s) :
    ∃ u, seqStep prm d t s = .next u := by
  cases hs : s.st with
  | idle => exact ⟨_, seqStep_of_idle hs⟩
  | rw => exact ⟨_, seqStep_of_rw hs⟩
  | hi => exact ⟨_, seqStep_of_hi hs⟩
  | delay =>
    rw [seqStep_of_delay hs, delayStep]
    split_ifs
    · exact delayDone_of_stage (hi.control.delay_stage hs)
    · exact ⟨_, rfl⟩
    · exact ⟨_, rfl⟩
  | lo =>
    rw [seqStep_of_lo hs, loStep]
    split_ifs
    · exact ⟨_, rfl⟩
    · exact ⟨_, rfl⟩
    · obtain ⟨u, hu, -⟩ := transactionDone_of_stage (fixup s.sh)
        (hi.control.burst_stage (by simp [bursting, hs])) (hi.control.count_pos (by simp [hs]))
      exact ⟨u, hu⟩

/-- Settles O38: the accumulator holds at most `k` samples, and `k < n ≤ 255`. -/
theorem accumulatorNeverWraps : Obligations.AccumulatorNeverWraps := by
  intro prm s x hi hb
  have hkn := hi.control.k_lt hb
  have hk : s.k.toNat < 255 := by omega
  have hexact := toNat_acc_add_sample x hk (hi.data.acc_range hb)
  have hle : (s.acc + zext32 x).toNat ≤ s.n.toNat * (2 ^ 24 - 1) :=
    (acc_add_sample_le x hk (hi.data.acc_range hb)).trans (Nat.mul_le_mul_right _ hkn)
  refine ⟨hexact, hle, ?_⟩
  rw [← hexact]
  omega

/-- Settles O41: the host's part always answers, and what it leaves to the sequencer satisfies the
invariant. -/
theorem goodStatesAlwaysStep : Obligations.GoodStatesAlwaysStep := by
  intro prm s a hi ha
  cases hn : (hostPins s).rst with
  | true => exact ⟨_, cycle_of_reset ha hn⟩
  | false =>
    obtain ⟨v, hv⟩ := hostPart_eq_next a s
    rw [cycle_of_resolve ha hn, runCycle, hv, andThen_next]
    split_ifs
    · exact ⟨_, rfl⟩
    · obtain ⟨u, hu⟩ := seqStep_eq_next (doutNow prm s) (tickNow prm s) (hostPart_inv hi hv)
      exact ⟨_, by rw [hu, andThen_next]⟩

end Sys2Proof.Machine
end

section
/-! A burst from its command word to its mean (spec/42_averaging.md R140 to R148), and AVERAGE, which returns
the mean. -/

namespace Sys2Proof.Machine

section
variable {prm : Params} {s u v : State}

/-- A whole burst from its start hands on the floor mean of its raw samples, the last of them in RAW (R140 to
R143). -/
theorem seqRun_burst_mean (xs : List Transfer) (y : Transfer) (hs : s.st = .rw)
    (ht : s.tmo = s.timeoutMs) (hk : s.k = 0#8) (ha : s.acc = 0#32)
    (hn : (xs ++ [y]).length = s.n.toNat)
    (h : ∀ x ∈ xs ++ [y], TransferOk prm s.timeoutMs.toNat x) :
    ∃ tm k a, seqRun prm (burstInputs (xs ++ [y])) s =
      nextState (burstDone (BitVec.ofNat 32 (meanNat (xs ++ [y]))) { s with
        st := .lo, sck := false, p := 24#5, c := 1, sh := y.word, tmo := tm, k := k,
        raw := zext32 (fixup y.word), acc := a }) := by
  obtain ⟨tm, k, hrun⟩ := seqRun_burst xs y hs ht (by simpa [hk] using hn) h
  rw [ha, floorMean_burst hn.symm] at hrun
  exact ⟨tm, k, _, hrun⟩

/-- The mean of a burst fits its register (R143). -/
theorem toNat_ofNat_meanNat (xs : List Transfer) : (BitVec.ofNat 32 (meanNat xs)).toNat = meanNat xs :=
  (BitVec.toNat_ofNat _ _).trans (Nat.mod_eq_of_lt ((meanNat_lt xs).trans (by decide)))

/-- A command that starts with a burst, from its word to the burst's end: BUSY is 1 in exactly the burst's
cycles (R92, R224). -/
theorem launched_burst {i : Instr} {xs : List Transfer} {n : Nat}
    (h : Launched prm s (encode i) (burstDout xs) (burstTick xs))
    (hx : ∀ x ∈ xs, TransferOk prm n x) (he : exec i s = .next v) (hv : v.env = s.env)
    (hr : seqRun prm (burstInputs xs) v = some u) :
    ∃ b e, cycles prm (1 + burstCycles prm xs) s = .next (setOuter b e u) ∧
      levels busy prm (1 + burstCycles prm xs) s =
        false :: List.replicate (burstCycles prm xs) true := by
  have hidle : busy s = false := by simp [busy, h.idle]
  rw [← burstInputs_dout hx, ← burstInputs_tick hx] at h
  obtain ⟨b, e, hcy, hl⟩ := launched_run h (decode_encode i) he hv hr
  have hlb := hl busy (fun _ _ _ => rfl)
  rw [seqLevels_busy hr, hidle] at hlb
  rw [← burstInputs_length hx]
  exact ⟨b, e, hcy, hlb⟩

/-- The mean of equal samples is the sample (R147). -/
theorem meanNat_of_constant {xs : List Transfer} {w : Sample} (hne : xs ≠ [])
    (hw : ∀ x ∈ xs, x.word = w) : meanNat xs = (fixup w).toNat := by
  have hsum : (xs.map rawNat).sum = xs.length * (fixup w).toNat := by
    rw [List.sum_eq_card_nsmul (xs.map rawNat) (fixup w).toNat (by
      simp only [List.mem_map, rawNat]
      rintro _ ⟨x, hx, rfl⟩
      rw [hw x hx]), List.length_map, smul_eq_mul]
  rw [meanNat, hsum, Nat.mul_div_cancel_left _ (List.length_pos_iff.mpr hne)]

end

/-- Settles O55: the accepted word starts the burst of `seqRun_burst_mean`, whose mean completes the
command. -/
theorem averageReturnsTheFloorMean : Obligations.AverageReturnsTheFloorMean := by
  intro prm s c xs y hlen h hx
  have hc : c ≠ 0#8 := by
    rintro rfl
    simp at hlen
  have he := (samplingCommandsStartABurst s c h.idle (hx y (by simp)).timeout_ne_zero).2.1 hc
  obtain ⟨tm, k, a, hrun⟩ := seqRun_burst_mean (prm := prm) xs y (s := { s with
    drop := false, op := 2#4, valid := false, err := .none, stage := .avg,
    n := c, acc := 0#32, k := 0#8, st := .rw, tmo := s.timeoutMs }) rfl rfl rfl rfl hlen hx
  obtain ⟨b, e, hcy, hl⟩ := launched_burst (i := .average c) h hx he rfl hrun
  refine ⟨_, hcy, hl, rfl, rfl, rfl, rfl, ?_, rfl, rfl, rfl, rfl⟩
  exact (toNat_ofNat_meanNat (xs ++ [y])).trans (by rw [meanNat, hlen])

/-- Settles O56: AVERAGE returns the floor mean (O55), and that of equal samples is the sample. -/
theorem averageOfAConstantIsTheConstant : Obligations.AverageOfAConstantIsTheConstant := by
  intro prm s c xs w hlen hc hw h hx
  have hne : xs ≠ [] := by
    rintro rfl
    exact hc (BitVec.eq_of_toNat_eq hlen.symm)
  obtain ⟨ys, y, rfl⟩ := (List.eq_nil_or_concat' xs).resolve_left hne
  obtain ⟨t, hcy, -, -, hvalid, -, -, hres, -⟩ := averageReturnsTheFloorMean prm s c ys y hlen h hx
  refine ⟨t, hcy, hvalid, BitVec.eq_of_toNat_eq ?_⟩
  calc t.result.toNat = meanNat (ys ++ [y]) := by rw [hres, ← hlen, meanNat]
    _ = (fixup w).toNat := meanNat_of_constant hne hw
    _ = (zext32 (w ^^^ 0x800000#24)).toNat := (toNat_zext32 _).symm

end Sys2Proof.Machine
end

section
/-! The delays (spec/43_excitation.md R166 to R170), SETPH.* (R162 to R164) and the two combinations (R172,
R175, R178). -/

namespace Sys2Proof.Machine

section
variable {prm : Params} {s : State}

theorem delayDone_of_warm (h : s.stage = .warm) :
    delayDone s = .next (delayStart .setp s.settleMs s) := by simp only [delayDone, h]

theorem delayDone_of_setp (h : s.stage = .setp) :
    delayDone s = .next (burstStart s.n { s with stage := .burp }) := by simp only [delayDone, h]

theorem delayDone_of_setn (h : s.stage = .setn) :
    delayDone s = .next (burstStart s.n { s with stage := .burn }) := by simp only [delayDone, h]

/-- The coming ticks are the listed ones. -/
theorem inputs_tick {ticks rt : List Bool} (h : s.env.tick = ticks ++ rt) :
    (inputs prm s ticks.length).map Prod.snd = ticks := by
  refine List.ext_getElem (by simp) fun j hj _ => ?_
  have hj' : j < ticks.length := by simpa using hj
  simp [inputs, inputAt, tickAt, h, List.getElem?_append_left, hj']

/-- The difference of two samples is exact (R172). -/
theorem toInt_sub_of_samples (x y : Sample) :
    (zext32 x - zext32 y).toInt = (x.toNat : Int) - y.toNat := by
  have hx := x.isLt
  have hy := y.isLt
  have hint (v : Sample) : (zext32 v).toInt = v.toNat := by
    rw [toInt_of_sample ((toNat_zext32 v).trans_lt v.isLt), toNat_zext32]
  rw [BitVec.toInt_sub, hint, hint]
  exact Int.bmod_eq_of_le (by omega) (by omega)

end

/-- Settles O7: SETPH.* has no parameter, and its start writes the phase. -/
theorem setPhaseSetsThePhase : Obligations.SetPhaseSetsThePhase :=
  fun _ hs => ⟨exec_of_good_params hs (opField_encode .setphOff) rfl,
    exec_of_good_params hs (opField_encode .setphPos) rfl,
    exec_of_good_params hs (opField_encode .setphNeg) rfl⟩

/-- Settles O32: the three branches of the delay. -/
theorem delaysCountTicks : Obligations.DelaysCountTicks := by
  intro prm s dout hs
  simp only [seqStep_of_delay hs, delayStep]
  exact ⟨fun h => if_neg h, fun h => if_neg h, fun h _ => if_pos h⟩

/-- Settles O33: a delay with no ticks left ends (O32), and its end is that of its stage. -/
theorem delaysEndByStage : Obligations.DelaysEndByStage := by
  intro prm s dout tick hs h0
  obtain ⟨-, -, hend⟩ := delaysCountTicks prm s dout hs
  rw [hend h0 tick]
  exact ⟨delayDone_of_warm, delayDone_of_setp, delayDone_of_setn⟩

/-- Settles O53: the sequencer's run on the coming levels uses up the delay's ticks, whatever `dout` is. -/
theorem delaysLastTheirTicks : Obligations.DelaysLastTheirTicks := by
  intro prm s u ticks rt hc hs ht htick hu
  rw [← inputs_tick (prm := prm) htick] at ht
  have hrun := seqRun_delay (prm := prm) hs ht
  rw [hu] at hrun
  have hin (j : Nat) (hj : j < (inputs prm s ticks.length).length) :=
    inputs_getElem? prm s (by simpa using hj)
  obtain ⟨b, e, hcy, -⟩ := cycles_of_inputs hc hin hrun
  have hl := levels_of_inputs (f := fun v => decide (v.st = .delay ∧ v.stage = s.stage))
    (fun _ _ _ => rfl) hc hin hrun
  rw [seqLevels_delay (fun _ _ => rfl) hs ht, inputs_length] at hl
  rw [inputs_length] at hcy
  exact ⟨_, hcy, rfl, by simpa [hs] using hl⟩

/-- Settles O36: the AC combination is the floor quotient of the exact difference. -/
theorem acCombinationIsTheFloor : Obligations.AcCombinationIsTheFloor := by
  intro x y
  have hhalf : (combineAc (zext32 x) (zext32 y)).toInt = ((x.toNat : Int) - y.toNat) / 2 := by
    rw [toInt_combineAc ((toNat_zext32 x).trans_lt x.isLt) ((toNat_zext32 y).trans_lt y.isLt),
      toNat_zext32, toNat_zext32]
  rw [hhalf]
  exact ⟨toInt_sub_of_samples x y, (Int.fdiv_eq_ediv_of_nonneg _ (by decide)).symm, by omega, by omega⟩

/-- Settles O37: the second form is the DC combination written out. -/
theorem dcCombinationIsTheMean : Obligations.DcCombinationIsTheMean :=
  fun _ hm => ⟨combineDc_eq hm, combineDc_eq hm⟩

end Sys2Proof.Machine
end

section
/-! SAMPLE_DC and SAMPLE_AC from their command word to their result (spec/43_excitation.md R165 to R177):
SAMPLE_AC is a warm-up and two settled bursts, and the lines follow its phase. -/

namespace Sys2Proof.Machine

section
variable {prm : Params} {f : State → Bool} {v : Bool} {s : State}

/-! ### The levels that follow the phase -/

/-- A level that the phase alone determines, such as `pwr` and `pol` (R28). -/
def ReadsPhase (f : State → Bool) : Prop := ∀ u w : State, u.phase = w.phase → f u = f w

theorem ReadsPhase.level_of_phase {u : State} (hf : ReadsPhase f) (hv : f s = v)
    (h : u.phase = s.phase) : f u = v :=
  (hf u s h).trans hv

theorem readsPhase_pwr (prm : Params) (x : Bool) : ReadsPhase fun u => pwr prm u == x := by
  intro u w h
  simp only [pwr, h]

theorem readsPhase_pol (prm : Params) (x : Bool) : ReadsPhase fun u => pol prm u == x := by
  intro u w h
  simp only [pol, h]

/-- Such a level stays through a transaction (R161). -/
theorem seqLevels_transfer_phase (hf : ReadsPhase f) (hv : f s = v) {x : Transfer} (hs : s.st = .rw)
    (h : TransferOk prm s.tmo.toNat x) :
    seqLevels f prm (transferInputs x) s = List.replicate (transferCycles prm x.wait) v := by
  have hline : f = lineLevel fun _ p => f { s with phase := p } := funext fun u => hf _ _ rfl
  rw [hline, seqLevels_transfer hs h, pulseLevels, List.replicate_append_replicate,
    List.flatten_replicate_replicate, ← hv]
  exact List.replicate_append_replicate

/-- Such a level stays through a burst (R161). -/
theorem seqLevels_burst_phase (hf : ReadsPhase f) (hv : f s = v) {xs : List Transfer}
    (hs : s.st = .rw) (ht : s.tmo = s.timeoutMs) (hk : s.k.toNat + xs.length = s.n.toNat)
    (h : ∀ x ∈ xs, TransferOk prm s.timeoutMs.toNat x) :
    seqLevels f prm (burstInputs xs) s = List.replicate (burstCycles prm xs) v := by
  induction xs generalizing s with
  | nil => rfl
  | cons x xs ih =>
    have hx : TransferOk prm s.tmo.toNat x := ht ▸ h x (by simp)
    have hfirst := seqLevels_transfer_phase hf hv hs hx
    cases xs with
    | nil => simpa [burstInputs, burstCycles] using hfirst
    | cons y ys =>
      have hn := s.n.isLt
      simp only [List.length_cons] at hk
      have hmore : s.k.toNat + 1 < s.n.toNat := by omega
      have hk1 : (s.k + 1#8).toNat = s.k.toNat + 1 := by bv_omega
      obtain ⟨tm, hrun⟩ := seqRun_transfer hs hx
      rw [transactionDone_more (by simpa using hmore)] at hrun
      rw [show burstInputs (x :: y :: ys) = transferInputs x ++ burstInputs (y :: ys) from rfl,
        seqLevels_append hrun, hfirst, ih, List.replicate_append_replicate]
      · rfl
      · exact hf.level_of_phase hv rfl
      · rfl
      · rfl
      · show (s.k + 1#8).toNat + (ys.length + 1) = s.n.toNat
        omega
      · exact fun z hz => h z (List.mem_cons_of_mem _ hz)

/-! ### A settle delay and its burst -/

/-- A burst of an accepted count has a transaction (R76). -/
theorem ne_nil_of_count {c : BitVec 8} {xs : List Transfer} (hc : c ≠ 0#8)
    (hn : xs.length = c.toNat) : xs ≠ [] := by
  rintro rfl
  exact hc (BitVec.eq_of_toNat_eq hn.symm)

/-- The end `b` of a burst of stage `g` that follows the delay in `s`: the phase is that of `s`, and so is all
that the rest of SAMPLE_AC reads. -/
structure BurstEnd (g : Stage) (s b : State) : Prop where
  stage : b.stage = g
  op : b.op = s.op
  timeoutMs : b.timeoutMs = s.timeoutMs
  settleMs : b.settleMs = s.settleMs
  phase : b.phase = s.phase
  count : b.n = s.n
  valp : b.valp = s.valp

section
variable {g : Stage} {ds : List (Bool × Bool)} {xs : List Transfer} (hs : s.st = .delay)
  (hd : delayDone { s with dly := 0#16 } =
    .next (burstStart s.n { s with dly := 0#16, stage := g }))
  (ht : DelayTicks s.dly.toNat (ds.map Prod.snd)) (hn : xs.length = s.n.toNat)
  (h : ∀ x ∈ xs, TransferOk prm s.timeoutMs.toNat x)
include hs hd ht hn h

/-- A settle delay and its burst hand on the floor mean of the burst (R168 to R171). -/
theorem seqRun_settled_burst (hne : xs ≠ []) :
    ∃ b, seqRun prm (ds ++ burstInputs xs) s =
      nextState (burstDone (BitVec.ofNat 32 (meanNat xs)) b) ∧ BurstEnd g s b := by
  obtain ⟨ys, y, rfl⟩ := (List.eq_nil_or_concat' xs).resolve_left hne
  have hdelay := seqRun_delay (prm := prm) hs ht
  rw [hd] at hdelay
  obtain ⟨tm, k, a, hrun⟩ := seqRun_burst_mean (prm := prm) ys y
    (s := burstStart s.n { s with dly := 0#16, stage := g }) rfl rfl rfl rfl hn h
  exact ⟨_, (seqRun_append hdelay).trans hrun, ⟨rfl, rfl, rfl, rfl, rfl, rfl, rfl⟩⟩

/-- A level that follows the phase stays through a settle delay and its burst (R161). -/
theorem seqLevels_settled_burst (hf : ReadsPhase f) (hv : f s = v) :
    seqLevels f prm (ds ++ burstInputs xs) s =
      List.replicate (ds.length + burstCycles prm xs) v := by
  have hdelay := seqRun_delay (prm := prm) hs ht
  rw [hd] at hdelay
  have hburst := seqLevels_burst_phase (prm := prm) hf
    (s := burstStart s.n { s with dly := 0#16, stage := g }) (hf.level_of_phase hv rfl) rfl rfl
    ((Nat.zero_add _).trans hn) h
  rw [seqLevels_append hdelay, seqLevels_delay (fun _ _ => hf _ _ rfl) hs ht, hburst, hv,
    List.replicate_append_replicate]

end

/-! ### The sequence of SAMPLE_AC -/

@[simp] theorem burpDone_dly (m : Word) (s : State) : (burpDone m s).dly = s.settleMs := rfl
@[simp] theorem burpDone_n (m : Word) (s : State) : (burpDone m s).n = s.n := rfl
@[simp] theorem burpDone_timeoutMs (m : Word) (s : State) :
    (burpDone m s).timeoutMs = s.timeoutMs := rfl

/-- The inputs from the acceptance of SAMPLE_AC to the end of the Positive burst. -/
def acPositiveInputs (a : AcSchedule) : List (Bool × Bool) :=
  a.warmDout.zip a.warmTick ++ (a.posDout.zip a.posTick ++ burstInputs a.pos)

/-- The inputs from the switch to Negative to the end of SAMPLE_AC. -/
def acNegativeInputs (a : AcSchedule) : List (Bool × Bool) :=
  a.negDout.zip a.negTick ++ burstInputs a.neg

/-- SAMPLE_AC right after its acceptance: the warm-up delay in phase Positive (R165). -/
def acAccepted (c : BitVec 8) (s : State) : State := { s with
  drop := false, op := 3#4, valid := false, err := .none, n := c, stage := .warm,
  phase := .positive, st := .delay, dly := s.warmupMs }

/-- SAMPLE_AC at the end of its warm-up: the Positive settle delay (R167). -/
def acWarmed (c : BitVec 8) (s : State) : State :=
  delayStart .setp s.settleMs { acAccepted c s with dly := 0#16 }

section
variable {c : BitVec 8} {a : AcSchedule} (h : AcScheduleOk prm s c a)
include h

theorem acInputs_dout : (acPositiveInputs a ++ acNegativeInputs a).map Prod.fst = acDout a := by
  simp [acPositiveInputs, acNegativeInputs, acDout, List.map_fst_zip, h.warm_dout, h.pos_dout,
    h.neg_dout, burstInputs_dout h.pos_ok, burstInputs_dout h.neg_ok]

theorem acInputs_tick : (acPositiveInputs a ++ acNegativeInputs a).map Prod.snd = acTick a := by
  simp [acPositiveInputs, acNegativeInputs, acTick, List.map_snd_zip, h.warm_dout, h.pos_dout,
    h.neg_dout, burstInputs_tick h.pos_ok, burstInputs_tick h.neg_ok]

theorem acInputs_length : (acPositiveInputs a ++ acNegativeInputs a).length =
    acPositiveCycles prm a + acNegativeCycles prm a := by
  simp [acPositiveInputs, acPositiveCycles, acNegativeInputs, acNegativeCycles, h.warm_dout,
    h.pos_dout, h.neg_dout, burstInputs_length h.pos_ok, burstInputs_length h.neg_ok, Nat.add_assoc]

theorem AcScheduleOk.warm_inputs :
    DelayTicks (acAccepted c s).dly.toNat ((a.warmDout.zip a.warmTick).map Prod.snd) := by
  rw [List.map_snd_zip h.warm_dout.ge]
  exact h.warm

theorem AcScheduleOk.settle_pos_inputs :
    DelayTicks (acWarmed c s).dly.toNat ((a.posDout.zip a.posTick).map Prod.snd) := by
  rw [List.map_snd_zip h.pos_dout.ge]
  exact h.settle_pos

theorem AcScheduleOk.settle_neg_inputs :
    DelayTicks s.settleMs.toNat ((a.negDout.zip a.negTick).map Prod.snd) := by
  rw [List.map_snd_zip h.neg_dout.ge]
  exact h.settle_neg

theorem seqRun_warmUp : seqRun prm (a.warmDout.zip a.warmTick) (acAccepted c s) =
    some (acWarmed c s) :=
  seqRun_delay rfl h.warm_inputs

/-- The Positive half runs to the end of its burst (R167 to R169). -/
theorem seqRun_acPositive : ∃ b, seqRun prm (acPositiveInputs a) (acAccepted c s) =
    some (burpDone (BitVec.ofNat 32 (meanNat a.pos)) b) ∧ BurstEnd .burp (acAccepted c s) b := by
  obtain ⟨b, hrun, hb⟩ := seqRun_settled_burst (s := acWarmed c s) rfl (delayDone_of_setp rfl)
    h.settle_pos_inputs h.pos_count h.pos_ok (ne_nil_of_count h.count_pos h.pos_count)
  refine ⟨b, ?_, { hb with }⟩
  rw [acPositiveInputs, seqRun_append (seqRun_warmUp h), hrun, burstDone, hb.stage]
  rfl

/-- The lines stay through the Positive half (R177). -/
theorem seqLevels_acPositive (hf : ReadsPhase f) (hv : f (acAccepted c s) = v) :
    seqLevels f prm (acPositiveInputs a) (acAccepted c s) =
      List.replicate (acPositiveCycles prm a) v := by
  have hburst := seqLevels_settled_burst (s := acWarmed c s) rfl (delayDone_of_setp rfl)
    h.settle_pos_inputs h.pos_count h.pos_ok hf (hf.level_of_phase hv rfl)
  rw [acPositiveInputs, seqLevels_append (seqRun_warmUp h),
    seqLevels_delay (fun _ _ => hf _ _ rfl) rfl h.warm_inputs, hburst, hv,
    List.replicate_append_replicate, acPositiveCycles]
  simp [h.warm_dout, h.pos_dout, Nat.add_assoc]

section
variable {b : State} (m : Word) (hb : BurstEnd .burp (acAccepted c s) b)
include hb

/-- The Negative half starts with the Negative settle delay (R169) and the configuration of the idle state. -/
theorem BurstEnd.negative_ok :
    DelayTicks (burpDone m b).dly.toNat ((a.negDout.zip a.negTick).map Prod.snd) ∧
      a.neg.length = (burpDone m b).n.toNat ∧
      ∀ x ∈ a.neg, TransferOk prm (burpDone m b).timeoutMs.toNat x := by
  refine ⟨?_, ?_, ?_⟩
  · rw [burpDone_dly, hb.settleMs]
    exact h.settle_neg_inputs
  · rw [burpDone_n, hb.count]
    exact h.neg_count
  · rw [burpDone_timeoutMs, hb.timeoutMs]
    exact h.neg_ok

/-- The Negative half runs to the end of its burst, which completes the command (R169 to R171). -/
theorem seqRun_acNegative : ∃ d, seqRun prm (acNegativeInputs a) (burpDone m b) =
    some (burnDone (BitVec.ofNat 32 (meanNat a.neg)) d) ∧ BurstEnd .burn (burpDone m b) d := by
  obtain ⟨hticks, hcount, hok⟩ := hb.negative_ok h m
  obtain ⟨d, hrun, hd⟩ := seqRun_settled_burst (s := burpDone m b) rfl (delayDone_of_setn rfl)
    hticks hcount hok (ne_nil_of_count h.count_pos h.neg_count)
  refine ⟨d, ?_, hd⟩
  rw [acNegativeInputs, hrun, burstDone, hd.stage]
  rfl

/-- The lines stay through the Negative half (R177). -/
theorem seqLevels_acNegative (hf : ReadsPhase f) (hv : f (burpDone m b) = v) :
    seqLevels f prm (acNegativeInputs a) (burpDone m b) =
      List.replicate (acNegativeCycles prm a) v := by
  obtain ⟨hticks, hcount, hok⟩ := hb.negative_ok h m
  rw [acNegativeInputs, seqLevels_settled_burst rfl (delayDone_of_setn rfl) hticks hcount hok hf hv,
    List.length_zip, h.neg_dout, Nat.min_self, acNegativeCycles]

end

/-- SAMPLE_AC from its word to its end: BUSY is 1 in exactly the cycles of its sequence, and a level that
follows the phase is that of Positive up to the end of the Positive burst and that of Negative after it (R165 to
R172, R177, R224). -/
theorem launched_sampleAc (hl : Launched prm s (encode (.sampleAc c)) (acDout a) (acTick a)) :
    ∃ t, cycles prm (1 + (acPositiveCycles prm a + acNegativeCycles prm a)) s = .next t ∧
      (t.st = .idle ∧ t.valid = true ∧ t.err = .none ∧ t.op = 3#4 ∧ t.phase = .off ∧
        t.valp = BitVec.ofNat 32 (meanNat a.pos) ∧ t.valn = BitVec.ofNat 32 (meanNat a.neg) ∧
        t.result = combineAc t.valn t.valp) ∧
      levels busy prm (1 + (acPositiveCycles prm a + acNegativeCycles prm a)) s =
        false :: List.replicate (acPositiveCycles prm a + acNegativeCycles prm a) true ∧
      ∀ f, ReadsPhase f →
        levels f prm (1 + (acPositiveCycles prm a + acNegativeCycles prm a)) s =
          f s :: (List.replicate (acPositiveCycles prm a) (f { s with phase := .positive }) ++
            List.replicate (acNegativeCycles prm a) (f { s with phase := .negative })) := by
  obtain ⟨b, hpos, hb⟩ := seqRun_acPositive h
  obtain ⟨d, hneg, hd⟩ := seqRun_acNegative h (BitVec.ofNat 32 (meanNat a.pos)) hb
  have hrun := (seqRun_append hpos).trans hneg
  obtain ⟨x, hx⟩ := List.exists_mem_of_ne_nil _ (ne_nil_of_count h.count_pos h.pos_count)
  have he : exec (.sampleAc c) s = .next (acAccepted c s) :=
    sampleAcStartsTheWarmUp s c hl.idle (h.pos_ok x hx).timeout_ne_zero h.count_pos
  have hidle : busy s = false := by simp [busy, hl.idle]
  rw [← acInputs_dout h, ← acInputs_tick h] at hl
  obtain ⟨o, e, hcy, hlev⟩ := launched_run hl (decode_encode _) he rfl hrun
  rw [acInputs_length h] at hcy hlev
  refine ⟨_, hcy, ⟨rfl, rfl, rfl, ?op, rfl, ?valp, rfl, rfl⟩, ?busy, fun f hf => ?lines⟩
  case op => exact hd.op.trans hb.op
  case valp => exact hd.valp
  case busy =>
    rw [hlev busy fun _ _ _ => rfl, hidle, seqLevels_busy hrun, acInputs_length h]
  case lines =>
    rw [hlev f fun _ _ _ => hf _ _ rfl]
    congr 1
    exact (seqLevels_append hpos).trans (congrArg₂ _ (seqLevels_acPositive h hf (hf _ _ rfl))
      (seqLevels_acNegative h _ hb hf (hf _ _ rfl)))

end

end

/-- Settles O57: the accepted word starts the burst of `seqRun_burst_mean`, and the DC combination returns its
mean. -/
theorem sampleDcReturnsTheMean : Obligations.SampleDcReturnsTheMean := by
  intro prm s c xs y hlen h hx
  have hc : c ≠ 0#8 := by
    rintro rfl
    simp at hlen
  obtain ⟨-, -, hstart⟩ :=
    samplingCommandsStartABurst s c h.idle (hx y (by simp)).timeout_ne_zero
  obtain ⟨tm, k, a, hrun⟩ := seqRun_burst_mean (prm := prm) xs y (s := { s with
    drop := false, op := 3#4, valid := false, err := .none, stage := .dc,
    n := c, acc := 0#32, k := 0#8, st := .rw, tmo := s.timeoutMs }) rfl rfl rfl rfl hlen hx
  obtain ⟨b, e, hcy, hl⟩ := launched_burst (i := .sampleDc c) h hx (hstart hc) rfl hrun
  have hmean := toNat_ofNat_meanNat (xs ++ [y])
  refine ⟨_, hcy, hl, rfl, rfl, rfl, rfl, ?_, rfl, ?_, rfl, rfl⟩
  · exact hmean.trans (by rw [meanNat, hlen])
  · exact combineDc_eq (hmean.trans_lt (meanNat_lt _))

/-- Settles O58: RESULT is the AC combination of the two means, which are samples. -/
theorem sampleAcReturnsTheHalfDifference : Obligations.SampleAcReturnsTheHalfDifference := by
  intro prm s c a hl h
  obtain ⟨t, hcy, ⟨hst, hvalid, herr, hop, hphase, hvalp, hvaln, hres⟩, hbusy, -⟩ :=
    launched_sampleAc h hl
  have hp : t.valp.toNat = meanNat a.pos := by rw [hvalp, toNat_ofNat_meanNat]
  have hn : t.valn.toNat = meanNat a.neg := by rw [hvaln, toNat_ofNat_meanNat]
  refine ⟨t, hcy, hbusy, hst, hvalid, herr, hop, hphase, ?_, ?_, ?_⟩
  · rw [hp, meanNat, h.pos_count]
  · rw [hn, meanNat, h.neg_count]
  · rw [hres, toInt_combineAc (hn.trans_lt (meanNat_lt _)) (hp.trans_lt (meanNat_lt _)),
      Int.fdiv_eq_ediv_of_nonneg _ (by decide)]

/-- Settles O59: `pwr` and `pol` follow the phase, which is Positive, then Negative, then Off. -/
theorem linesDuringSampleAc : Obligations.LinesDuringSampleAc := by
  intro prm s c a hl h
  obtain ⟨t, hcy, ⟨-, -, -, -, hphase, -⟩, -, hlines⟩ := launched_sampleAc h hl
  obtain ⟨hoff, -⟩ := linesFollowThePhase prm t
  refine ⟨?pwr, ?pol, t, hcy, hoff hphase⟩
  case pwr =>
    rw [hlines _ (readsPhase_pwr prm _)]
    simp [pwr]
  case pol =>
    rw [hlines _ (readsPhase_pol prm _)]
    simp [pol]

end Sys2Proof.Machine
end

section
/-! Waits and the timebase (spec/60_exceptions.md R202): without ticks a wait changes nothing of the block;
with a fair timebase it ends, and so does every command, whose remaining work falls with each step that does
not just wait for a tick. -/

namespace Sys2Proof.Machine

section
variable {prm : Params} {s v : State}

/-- A run whose every step changes nothing ends where it began. -/
theorem seqRun_still {xs : List (Bool × Bool)} (hb : s.st ≠ .idle)
    (h : ∀ x ∈ xs, seqStep prm x.1 x.2 s = .next s) : seqRun prm xs s = some s := by
  induction xs with
  | nil => rfl
  | cons x xs ih =>
    obtain ⟨hx, hxs⟩ := List.forall_mem_cons.mp h
    rw [seqRun_cons hb hx, ih hxs]

/-- Cycles in which the sequencer has nothing to do leave the block as it is, but for DROP (R94). -/
theorem cycles_still {k : Nat} (hc : Calm prm s) (hb : s.st ≠ .idle)
    (h : ∀ j < k, seqStep prm (doutAt prm s j) (tickAt prm s j) s = .next s) :
    ∃ t, cycles prm k s = .next t ∧ sequencerPart t = sequencerPart s := by
  have hrun : seqRun prm (inputs prm s k) s = some s := by
    refine seqRun_still hb fun x hx => ?_
    obtain ⟨j, hj, rfl⟩ := List.mem_map.mp hx
    exact h j (List.mem_range.mp hj)
  obtain ⟨b, e, hcy, -⟩ := cycles_of_inputs hc
    (fun j hj => inputs_getElem? prm s (by simpa using hj)) hrun
  rw [inputs_length] at hcy
  exact ⟨_, hcy, rfl⟩

/-- A step of the ready wait: ready, the last tick, another tick, or nothing (R113). -/
theorem seqStep_rw_cases (d t : Bool) (hs : s.st = .rw) : ∃ v, seqStep prm d t s = .next v ∧
    (v = { s with st := .hi, p := 0#5, c := prm.H, sck := true } ∨ v = completeErr .timeout s ∨
      s.tmo ≠ 1#16 ∧ v = { s with tmo := s.tmo - 1#16 } ∨ t = false ∧ v = s) := by
  obtain ⟨hready, hlast, hcount, hstill⟩ := (readyWaitPollsThenCounts prm s).1 hs t
  cases d with
  | false => exact ⟨_, hready, .inl rfl⟩
  | true =>
    cases t with
    | false => exact ⟨_, hstill, .inr (.inr (.inr ⟨rfl, rfl⟩))⟩
    | true =>
      by_cases h1 : s.tmo = 1#16
      · exact ⟨_, hlast h1, .inr (.inl rfl)⟩
      · exact ⟨_, hcount h1, .inr (.inr (.inl ⟨h1, rfl⟩))⟩

/-- A step of a delay: its end, a tick, or nothing (R166). -/
theorem seqStep_delay_cases (d t : Bool) (hs : s.st = .delay) :
    seqStep prm d t s = delayDone s ∨
    s.dly ≠ 0#16 ∧ seqStep prm d t s = .next { s with dly := s.dly - 1#16 } ∨
    t = false ∧ seqStep prm d t s = .next s := by
  obtain ⟨htick, hstill, hend⟩ := delaysCountTicks prm s d hs
  by_cases h0 : s.dly = 0#16
  · exact .inl (hend h0 t)
  · cases t with
    | false => exact .inr (.inr ⟨rfl, hstill h0⟩)
    | true => exact .inr (.inl ⟨h0, htick h0⟩)

/-- Stages still to come in the command's sequence (R165 to R171). -/
def stagesLeft : Stage → Nat
  | .warm => 4
  | .setp => 3
  | .burp => 2
  | .setn => 1
  | .burn => 0
  | .raws => 0
  | .avg => 0
  | .dc => 0

/-- Phases of `sck` still to come in the transaction: 25 pulses of a high and a low phase after the ready wait
(R113 to R116). -/
def clockPhasesLeft (s : State) : Nat :=
  match s.st with
  | .idle => 0
  | .delay => 0
  | .rw => 51
  | .hi => 2 * (24 - s.p.toNat) + 2
  | .lo => 2 * (24 - s.p.toNat) + 1

/-- What is left of the countdown of the sequencer's step: ticks in a wait, cycles in a phase of `sck`
(R42, R43). In the ready wait the tick at `tmo = 1` is the last (R113). -/
def countdown (s : State) : Nat :=
  match s.st with
  | .idle => 0
  | .delay => s.dly.toNat
  | .rw => (s.tmo - 1#16).toNat
  | .hi => s.c
  | .lo => s.c

/-- The remaining work of a command: stages, then transactions of the burst, then phases of `sck`, then the
countdown. -/
def work (s : State) : ℕ ×ₗ ℕ ×ₗ ℕ ×ₗ ℕ :=
  toLex (stagesLeft s.stage, toLex (s.n.toNat - s.k.toNat, toLex (clockPhasesLeft s, countdown s)))

theorem work_lt_iff : work v < work s ↔
    stagesLeft v.stage < stagesLeft s.stage ∨ stagesLeft v.stage = stagesLeft s.stage ∧
      (v.n.toNat - v.k.toNat < s.n.toNat - s.k.toNat ∨
        v.n.toNat - v.k.toNat = s.n.toNat - s.k.toNat ∧
      (clockPhasesLeft v < clockPhasesLeft s ∨ clockPhasesLeft v = clockPhasesLeft s ∧
        countdown v < countdown s)) := by
  simp only [work, Prod.Lex.toLex_lt_toLex]

theorem work_lt_of_stage (h : stagesLeft v.stage < stagesLeft s.stage) : work v < work s :=
  work_lt_iff.mpr (.inl h)

theorem work_lt_of_transactions (hg : v.stage = s.stage)
    (h : v.n.toNat - v.k.toNat < s.n.toNat - s.k.toNat) : work v < work s :=
  work_lt_iff.mpr (.inr ⟨congrArg _ hg, .inl h⟩)

/-- Within a transaction or a delay the work falls with the phases of `sck` and with the countdown. -/
theorem work_lt_of_clock (hg : v.stage = s.stage) (hn : v.n = s.n) (hk : v.k = s.k)
    (h : clockPhasesLeft v < clockPhasesLeft s ∨
      clockPhasesLeft v = clockPhasesLeft s ∧ countdown v < countdown s) : work v < work s :=
  work_lt_iff.mpr (.inr ⟨congrArg _ hg, .inr ⟨by rw [hn, hk], h⟩⟩)

/-- A tick of the ready wait that is not the last lowers its countdown (R113). -/
theorem countdown_rw_tick (hs : s.st = .rw) (h : s.tmo ≠ 1#16) :
    countdown { s with tmo := s.tmo - 1#16 } < countdown s := by
  simp only [countdown, hs]
  bv_omega

/-- A tick of a delay lowers its countdown (R166). -/
theorem countdown_delay_tick (hs : s.st = .delay) (h : s.dly ≠ 0#16) :
    countdown { s with dly := s.dly - 1#16 } < countdown s := by
  simp only [countdown, hs]
  bv_omega

/-- The end of a delay moves on to the next stage of SAMPLE_AC (R167, R168, R170). -/
theorem delayDone_stagesLeft (h : delayDone s = .next v) :
    stagesLeft v.stage < stagesLeft s.stage := by
  cases hg : s.stage <;> simp only [delayDone, hg] at h <;> cases h
  case warm => exact show 3 < 4 by decide
  case setp => exact show 2 < 3 by decide
  case setn => exact show 0 < 1 by decide

/-- The end of a burst completes the command or moves on to the Negative settle delay (R142). -/
theorem burstDone_stagesLeft {m : Word} (h : burstDone m s = .next v) :
    v.st = .idle ∨ stagesLeft v.stage < stagesLeft s.stage := by
  cases hg : s.stage <;> simp only [burstDone, hg] at h <;> cases h
  case burp => exact .inr (show 1 < 2 by decide)
  all_goals exact .inl rfl

/-- The end of a transaction leaves one transaction less, or ends the burst (R141). -/
theorem transactionDone_work {x : Sample} (hn : s.n ≠ 0#8) (h : transactionDone x s = .next v) :
    v.st = .idle ∨ work v < work s := by
  by_cases hmore : s.k.toNat + 1 < s.n.toNat
  · rw [transactionDone_more hmore] at h
    cases h
    have hk : s.n.toNat - (s.k + 1#8).toNat < s.n.toNat - s.k.toNat := by bv_omega
    exact .inr (work_lt_of_transactions rfl hk)
  · rw [transactionDone_last hmore hn] at h
    exact (burstDone_stagesLeft h).imp_right work_lt_of_stage

/-- A step of a running command ends it or lowers its remaining work, or waits for a tick (R202). -/
theorem seqStep_work {d t : Bool} (hi : Inv prm s) (hb : s.st ≠ .idle)
    (h : seqStep prm d t s = .next v) : v.st = .idle ∨ work v < work s ∨ t = false ∧ v = s := by
  cases hs : s.st with
  | idle => exact absurd hs hb
  | delay =>
    obtain hq | ⟨h0, hq⟩ | ⟨ht, hq⟩ := seqStep_delay_cases (prm := prm) d t hs <;> rw [hq] at h
    · exact .inr (.inl (work_lt_of_stage (delayDone_stagesLeft h)))
    · cases h
      exact .inr (.inl (work_lt_of_clock rfl rfl rfl (.inr ⟨rfl, countdown_delay_tick hs h0⟩)))
    · cases h
      exact .inr (.inr ⟨ht, rfl⟩)
  | rw =>
    obtain ⟨w, hq, hw⟩ := seqStep_rw_cases (prm := prm) d t hs
    cases hq.symm.trans h
    obtain rfl | rfl | ⟨h1, rfl⟩ | hstill := hw
    · exact .inr (.inl (work_lt_of_clock rfl rfl rfl (.inl (by simp [clockPhasesLeft, hs]))))
    · exact .inl rfl
    · exact .inr (.inl (work_lt_of_clock rfl rfl rfl (.inr ⟨rfl, countdown_rw_tick hs h1⟩)))
    · exact .inr (.inr hstill)
  | hi =>
    rw [seqStep_of_hi hs] at h
    cases h
    refine .inr (.inl ?_)
    simp only [hiStep]
    split_ifs with hc
    · exact work_lt_of_clock rfl rfl rfl (.inr ⟨rfl, by simp only [countdown, hs]; omega⟩)
    all_goals exact work_lt_of_clock rfl rfl rfl (.inl (by simp [clockPhasesLeft, hs]))
  | lo =>
    rw [seqStep_of_lo hs, loStep] at h
    split_ifs at h with hc hp
    · cases h
      exact .inr (.inl
        (work_lt_of_clock rfl rfl rfl (.inr ⟨rfl, by simp only [countdown, hs]; omega⟩)))
    · cases h
      have hp1 : 2 * (24 - (s.p + 1#5).toNat) + 2 < 2 * (24 - s.p.toNat) + 1 := by bv_omega
      exact .inr (.inl
        (work_lt_of_clock rfl rfl rfl (.inl (by simpa only [clockPhasesLeft, hs] using hp1))))
    · exact (transactionDone_work (hi.control.count_pos hb) h).imp_right .inl

/-- The ready wait has ended, by ready or by timeout (R113, R114). -/
def ReadyWaitOver (t : State) : Prop :=
  t.st = .hi ∨ t.st = .idle ∧ t.valid = false ∧ t.err = .timeout ∧ t.result = 0x80000000#32

/-- The delay of the stage `g` has ended in the next delay or in its burst (R167, R168, R170). -/
def DelayOver (g : Stage) (t : State) : Prop :=
  (g = .warm → t.st = .delay ∧ t.stage = .setp) ∧ (g = .setp → t.st = .rw ∧ t.stage = .burp) ∧
    (g = .setn → t.st = .rw ∧ t.stage = .burn)

/-- The end of a delay in a stage that has one (R167, R168, R170). -/
theorem delayDone_over (hg : s.stage = .warm ∨ s.stage = .setp ∨ s.stage = .setn) :
    ∃ v, delayDone s = .next v ∧ DelayOver s.stage v := by
  obtain h | h | h := hg
  · exact ⟨_, delayDone_of_warm h, by simp [DelayOver, h]⟩
  · exact ⟨_, delayDone_of_setp h, by simp [DelayOver, h]⟩
  · exact ⟨_, delayDone_of_setn h, by simp [DelayOver, h]⟩

/-- With a fair timebase the ready wait ends. -/
theorem readyWait_ends (hc : Calm prm s) (hf : FairTimebase prm s) (hs : s.st = .rw) :
    ∃ k t, cycles prm k s = .next t ∧ ReadyWaitOver t ∧
      ∀ j < k, ∀ u, cycles prm j s = .next u → u.st = .rw := by
  refine cycles_until wellFounded_lt (R := fun u => u.st = .rw) (μ := countdown)
    (fun _ _ _ => id) (fun _ _ _ => id) (fun _ _ _ => rfl) (fun u hu => by simp [hu])
    (fun u d t hu => ?_) hs hc hf
  obtain ⟨v, hv, hcases⟩ := seqStep_rw_cases (prm := prm) d t hu
  refine ⟨v, hv, ?_⟩
  obtain rfl | rfl | ⟨h1, rfl⟩ | hstill := hcases
  · exact .inl (.inl rfl)
  · exact .inl (.inr ⟨rfl, rfl, rfl, rfl⟩)
  · exact .inr (.inl ⟨hu, countdown_rw_tick hu h1⟩)
  · exact .inr (.inr hstill)

/-- With a fair timebase every delay ends. -/
theorem delay_ends (hc : Calm prm s) (hf : FairTimebase prm s) (hs : s.st = .delay)
    (hg : s.stage = .warm ∨ s.stage = .setp ∨ s.stage = .setn) :
    ∃ k t, cycles prm k s = .next t ∧ DelayOver s.stage t ∧
      ∀ j < k, ∀ u, cycles prm j s = .next u → u.st = .delay ∧ u.stage = s.stage := by
  refine cycles_until wellFounded_lt (R := fun u => u.st = .delay ∧ u.stage = s.stage) (μ := countdown)
    (fun _ _ _ => id) (fun _ _ _ => id) (fun _ _ _ => rfl) (fun u hu => by simp [hu.1])
    (fun u d t hu => ?_) ⟨hs, rfl⟩ hc hf
  obtain ⟨hd, hst⟩ := hu
  obtain hq | ⟨h0, hq⟩ | ⟨ht, hq⟩ := seqStep_delay_cases (prm := prm) d t hd <;> rw [hq]
  · obtain ⟨v, hv, hover⟩ := delayDone_over (hst ▸ hg)
    exact ⟨v, hv, .inl (hst ▸ hover)⟩
  · exact ⟨_, rfl, .inr (.inl ⟨⟨hd, hst⟩, countdown_delay_tick hd h0⟩)⟩
  · exact ⟨u, rfl, .inr (.inr ⟨ht, rfl⟩)⟩

/-- A running command of the invariant always steps: to its end, to a state of the invariant with less work
left, or, waiting for a tick, not at all (R202). -/
theorem seqStep_progress (d t : Bool) (hi : Inv prm s) (hb : s.st ≠ .idle) :
    ∃ v, seqStep prm d t s = .next v ∧
      (v.st = .idle ∨ (Inv prm v ∧ v.st ≠ .idle) ∧ work v < work s ∨ t = false ∧ v = s) := by
  obtain ⟨v, hv⟩ := seqStep_eq_next d t hi
  refine ⟨v, hv, ?_⟩
  by_cases hend : v.st = .idle
  · exact .inl hend
  · exact .inr (((seqStep_work hi hb hv).resolve_left hend).imp_left
      (.intro ⟨seqStep_inv hi hv, hend⟩))

/-- With a fair timebase every running command ends. -/
theorem command_ends (hc : Calm prm s) (hf : FairTimebase prm s) (hi : Inv prm s) :
    ∃ k t, cycles prm k s = .next t ∧ t.st = .idle := by
  by_cases hs : s.st = .idle
  · exact ⟨0, s, rfl, hs⟩
  · obtain ⟨k, t, hcy, ht, -⟩ := cycles_until wellFounded_lt
      (R := fun u => Inv prm u ∧ u.st ≠ .idle) (Q := fun u => u.st = .idle) (μ := work)
      (fun b e u hu => ⟨inv_setOuter b e hu.1, hu.2⟩) (fun _ _ _ => id) (fun _ _ _ => rfl)
      (fun _ hu => hu.2) (fun _ d t hu => seqStep_progress d t hu.1 hu.2) ⟨hi, hs⟩ hc hf
    exact ⟨k, t, hcy, ht⟩

end

/-- Settles O52: without a tick, and without ready in the ready wait, the sequencer's step changes nothing. -/
theorem withoutTicksAWaitNeverEnds : Obligations.WithoutTicksAWaitNeverEnds := by
  intro prm k s rd rt hc htick hwait
  have ht (j : Nat) (hj : j < k) : tickAt prm s j = false := by
    simp [tickAt, htick, List.getElem?_append_left, hj]
  obtain ⟨hs, hdout⟩ | ⟨hs, hdly⟩ := hwait
  · refine cycles_still hc (by simp [hs]) fun j hj => ?_
    have hd : doutAt prm s j = true := by simp [doutAt, hdout, List.getElem?_append_left, hj]
    obtain ⟨-, -, -, hstill⟩ := (readyWaitPollsThenCounts prm s).1 hs false
    rw [hd, ht j hj, hstill]
  · refine cycles_still hc (by simp [hs]) fun j hj => ?_
    obtain ⟨-, hstill, -⟩ := delaysCountTicks prm s (doutAt prm s j) hs
    rw [ht j hj, hstill hdly]

/-- Settles O60: the ready wait and the delay by their countdown, a command by its remaining work. -/
theorem fairTicksEndEveryWait : Obligations.FairTicksEndEveryWait := by
  intro prm s hc hf
  refine ⟨fun hs => ?_, fun hs hg => ?_, command_ends hc hf⟩
  · obtain ⟨k, t, hcy, hover, hall⟩ := readyWait_ends hc hf hs
    exact ⟨k, t, hcy, hall, hover⟩
  · obtain ⟨k, t, hcy, hover, hall⟩ := delay_ends hc hf hs hg
    exact ⟨k, t, hcy, hall, hover⟩

end Sys2Proof.Machine
end

section
/-! A cycle with reset (spec/40_command.md R90; spec/60_exceptions.md R210): the block's state after it and
`h_rdata`, with no part of the access performed. -/

namespace Sys2Proof.Machine

/-- After a reset cycle only the environment tells which state it began in. -/
theorem resetCycle_eq_reset (a : PortOp) (s : State) :
    resetCycle a s = { State.reset with env := (resetCycle a s).env } := rfl

@[simp] theorem resetCycle_hrdata (a : PortOp) (s : State) : (resetCycle a s).env.hrdata = 0#32 := rfl

/-- Settles O23: an admitted access in a reset cycle makes the cycle `resetCycle`, whose block state and
`h_rdata` depend on neither the access nor the state. -/
theorem resetCycleResetsTheBlock : Obligations.ResetCycleResetsTheBlock := by
  intro prm s x a hr
  have hcycle : cycle prm (hostDoes ⟨true, x⟩ s) = .next (resetCycle a (hostDoes ⟨true, x⟩ s)) :=
    cycle_of_reset hr rfl
  exact ⟨_, hcycle, resetCycle_eq_reset a _, resetCycle_hrdata a _⟩

end Sys2Proof.Machine
end
